-- ==== Sys2Proof/Word.lean ====
section
/-! DEFINITION. The data types of the block (spec/00_scope.md R5, R7, R11): bytes, host addresses, columns,
16-byte blocks in their 4x4 column-major form, and the round-key schedule. Operations on them stand in
Machine/Operands.lean. -/

namespace Sys2Proof

/-- A byte, a value in [0,255] (R5). -/
abbrev Byte := BitVec 8

/-- A 32-bit host byte address (R7). -/
abbrev Addr := BitVec 32

/-- A 32-bit unsigned length counter, IN_LEN or OUT_LEN (R7). -/
abbrev Count := BitVec 32

/-- A 48-bit host transaction word (spec/30_encoding.md R88). -/
abbrev TransactionWord := BitVec 48

/-- A Column: an ordered sequence of exactly 4 bytes, row 0 first (R5, R11). -/
structure Column where
  r0 : Byte
  r1 : Byte
  r2 : Byte
  r3 : Byte
deriving DecidableEq, Repr, Inhabited

/-- A Block: exactly 16 bytes, seen as the four columns of its 4x4 matrix (R11: column c is the flat bytes
[4c..4c+4)). -/
structure Block where
  c0 : Column
  c1 : Column
  c2 : Column
  c3 : Column
deriving DecidableEq, Repr, Inhabited

/-- A RoundKeySchedule: exactly 11 round keys of 16 bytes (R5). -/
abbrev Schedule := Vector Block 11

end Sys2Proof
end

