-- ==== Sys2Proof/Config.lean ====
section
/-! DEFINITION. What the spec leaves open. The implementation parameter IN_CAP (spec/00_scope.md R6) and the free
values: RAM contents at reset (spec/10_state.md R43) and the RNG agent's behaviour (spec/44_cbc_engine.md R162).
The free values have no body, so no proof can rest on a value of theirs. -/

namespace Sys2Proof

/-- A legal IN_CAP (R6): a multiple of 16 with 32 <= IN_CAP <= 0x000F_FFE0. `extra` counts the 16-byte units
above the smallest capacity, so that IN_CAP = 16 * extra + 32 and every value of the type is legal; the sum is
`inCapBytes` in Machine/Operands.lean. -/
structure InCap where
  extra : Fin 65533
deriving DecidableEq, Repr, Inhabited

/-- The block's IN_CAP: any legal capacity (R6; log 2). -/
opaque Config.inCap : InCap

/-- IN_BUF byte `offset` after reset number `epoch`: any byte, a draw at reset (R43; log 3). -/
opaque Config.inBufReset : (epoch offset : Nat) → Byte

/-- OUT_BUF RAM byte `offset` after reset number `epoch`: any byte, never observable (R39, R43; log 4). -/
opaque Config.outBufReset : (epoch offset : Nat) → Byte

/-- What poll number `poll` of the RNG port finds once the answers listed in the state are used up: no answer
yet, or any 16 bytes (R162; log 5). -/
opaque Config.rngFree : (poll : Nat) → Option Block

end Sys2Proof
end

