-- ==== Sys2Proof/Syntax.lean ====
section
/-! DEFINITION. The instructions: one constructor per row of spec/opcode_table.json. The thirteen command bytes
(spec/30_encoding.md R82) take no operand field (R85: every operand is a fixed register); RD and WR are the two
host transactions (R88). -/

namespace Sys2Proof

/-- The instructions of the block. -/
inductive Instr where
  /-- GFMUL, 0x02: RES <- OPA · OPB in GF(2^8) (R102). -/
  | gfmul
  /-- KEYEXP, 0x10: RK <- expand(KEY) (R122). -/
  | keyexp
  /-- SUBB, 0x20: STATE <- SubBytes(STATE) (R130). -/
  | subb
  /-- ISUBB, 0x21: STATE <- InvSubBytes(STATE) (R131). -/
  | isubb
  /-- SHR, 0x22: STATE <- ShiftRows(STATE) (R132). -/
  | shr
  /-- ISHR, 0x23: STATE <- InvShiftRows(STATE) (R133). -/
  | ishr
  /-- MIXC, 0x24: STATE <- MixColumns(STATE) (R134). -/
  | mixc
  /-- IMIXC, 0x25: STATE <- InvMixColumns(STATE) (R135). -/
  | imixc
  /-- ARK, 0x26: STATE <- STATE ^ RK[ROUND] (R136). -/
  | ark
  /-- ENCB, 0x30: STATE <- encrypt_block(STATE, RK) (R150). -/
  | encb
  /-- DECB, 0x31: STATE <- decrypt_block(STATE, RK) (R151). -/
  | decb
  /-- CBCE, 0x40: OUT_BUF <- CBC encrypt of IN_BUF (R164). -/
  | cbce
  /-- CBCD, 0x41: OUT_BUF <- CBC decrypt of IN_BUF (R166). -/
  | cbcd
  /-- RD addr: host read of one byte (R191). -/
  | rd (addr : Addr)
  /-- WR addr, data: host write of one byte (R192). -/
  | wr (addr : Addr) (data : Byte)
deriving DecidableEq, Repr

end Sys2Proof
end

