-- ==== Sys2Proof/WellFormed.lean ====
section
/-! DEFINITION. Well-formedness checks. Every field of an instruction is a bit vector of the width the spec gives it,
so every instruction is well formed; what can be ill formed is a transaction word (spec/30_encoding.md R89) and a
capacity (spec/00_scope.md R6). -/

namespace Sys2Proof

/-- An instruction is well formed: a command has no field, and the fields of RD and WR hold exactly the values
R88 admits (32-bit address, 8-bit data), so no constructor asks for more. -/
def Instr.wellFormed : Instr → Bool
  | .gfmul | .keyexp | .subb | .isubb | .shr | .ishr | .mixc | .imixc | .ark => true
  | .encb | .decb | .cbce | .cbcd => true
  | .rd _ => true
  | .wr _ _ => true

/-- R88: bits [47:41] of a transaction word are reserved and must be 0. -/
def reservedBitsClear (w : TransactionWord) : Bool := w >>> 41 == 0#48

/-- R88: DATA must be 0 when W = 0. -/
def readDataClear (w : TransactionWord) : Bool := w.getLsbD 40 || w.setWidth 8 == 0#8

/-- A 48-bit word that spells a transaction (R89). -/
def wordWellFormed (w : TransactionWord) : Bool := reservedBitsClear w && readDataClear w

/-- A byte count that IN_CAP may have (R6): a multiple of 16 from 32 to 0x000F_FFE0. -/
def capacityLegal (bytes : Nat) : Bool := bytes % 16 == 0 && 32 ≤ bytes && bytes ≤ 0xFFFE0

end Sys2Proof
end

