-- ==== Sys2Proof/Decode.lean ====
section
/-! DEFINITION. Decoding and encoding (spec/30_encoding.md). The decoder is total on both encoded forms of R80, the
command byte and the 48-bit transaction word, and rejects by name. The decoder of a command byte is the exact-match
table of R82 and R83; the encoder builds the byte from the UNIT, OP and D fields of R81, so the two are written from
different tables of the spec. -/

namespace Sys2Proof

/-- One encoded form (R80): a command byte, or a host transaction word. -/
inductive Code where
  | command (v : Byte)
  | transaction (w : TransactionWord)
deriving DecidableEq, Repr

/-- Why a code spells no instruction. -/
inductive Reject where
  /-- One of the 243 bytes not in R82 (R83). Writing it to CMD is no stop: it executes ILLEGAL. -/
  | illegalCommand (v : Byte)
  /-- A transaction word with one of bits [47:41] set (R89). -/
  | reservedBits (w : TransactionWord)
  /-- A transaction word with W = 0 and DATA != 0 (R89). -/
  | readWithData (w : TransactionWord)
deriving DecidableEq, Repr

/-- The legal command bytes (R82). -/
def commandTable : List (Byte × Instr) :=
  [(0x02#8, .gfmul), (0x10#8, .keyexp),
   (0x20#8, .subb), (0x21#8, .isubb), (0x22#8, .shr), (0x23#8, .ishr), (0x24#8, .mixc), (0x25#8, .imixc),
   (0x26#8, .ark),
   (0x30#8, .encb), (0x31#8, .decb), (0x40#8, .cbce), (0x41#8, .cbcd)]

/-- The command a byte selects: an exact match of all 8 bits (R83). -/
def decodeCommand (v : Byte) : Except Reject Instr :=
  match commandTable.lookup v with
  | some i => .ok i
  | none => .error (.illegalCommand v)

/-- Field W, bit 40 of a transaction word (R88). -/
def wordWrites (w : TransactionWord) : Bool := w.getLsbD 40

/-- Field ADDR, bits [39:8] of a transaction word (R88). -/
def wordAddr (w : TransactionWord) : Addr := w.extractLsb' 8 32

/-- Field DATA, bits [7:0] of a transaction word (R88). -/
def wordData (w : TransactionWord) : Byte := w.extractLsb' 0 8

/-- The transaction a word spells (R88), or why it spells none (R89). -/
def decodeTransaction (w : TransactionWord) : Except Reject Instr :=
  if w.extractLsb' 41 7 ≠ 0#7 then .error (.reservedBits w)
  else if wordWrites w then .ok (.wr (wordAddr w) (wordData w))
  else if wordData w ≠ 0#8 then .error (.readWithData w)
  else .ok (.rd (wordAddr w))

/-- The decoder, total on both forms. -/
def decode : Code → Except Reject Instr
  | .command v => decodeCommand v
  | .transaction w => decodeTransaction w

/-- A command byte from its fields (R81): UNIT in [7:4], OP in [3:1], D in [0]. -/
def packCommand (unit : BitVec 4) (op : BitVec 3) (d : BitVec 1) : Byte := unit ++ op ++ d

/-- A transaction word from its fields (R88). -/
def packTransaction (writes : BitVec 1) (addr : Addr) (data : Byte) : TransactionWord :=
  0#7 ++ writes ++ addr ++ data

/-- The encoder: the fields of R82's rows for the commands, of R88 for RD and WR. -/
def encode : Instr → Code
  | .gfmul => .command (packCommand 0 1 0)
  | .keyexp => .command (packCommand 1 0 0)
  | .subb => .command (packCommand 2 0 0)
  | .isubb => .command (packCommand 2 0 1)
  | .shr => .command (packCommand 2 1 0)
  | .ishr => .command (packCommand 2 1 1)
  | .mixc => .command (packCommand 2 2 0)
  | .imixc => .command (packCommand 2 2 1)
  | .ark => .command (packCommand 2 3 0)
  | .encb => .command (packCommand 3 0 0)
  | .decb => .command (packCommand 3 0 1)
  | .cbce => .command (packCommand 4 0 0)
  | .cbcd => .command (packCommand 4 0 1)
  | .rd a => .transaction (packTransaction 0 a 0)
  | .wr a v => .transaction (packTransaction 1 a v)

/-- The host address of CMD (spec/20_memory.md R51). -/
def cmdAddr : Addr := 0x00000000#32

/-- The transaction word by which the host runs command byte `v`: a write to CMD (R91, `CMD m`). -/
def commandWord (v : Byte) : TransactionWord := packTransaction 1 cmdAddr v

/-- The code of an opcode-table row: rows of up to 8 bits are command bytes, wider ones transaction words; a value
that does not fit its form is no code. -/
def tableCode (nbits w : Nat) : Option Code :=
  if nbits ≤ 8 then (if w < 2 ^ 8 then some (.command (BitVec.ofNat 8 w)) else none)
  else if w < 2 ^ 48 then some (.transaction (BitVec.ofNat 48 w)) else none

/-- The instruction the decoder reads from a table row's bits, numbered as spec/opcode_table.json numbers them. -/
def decodeTableWord (nbits w : Nat) : Option Instr :=
  match tableCode nbits w with
  | none => none
  | some c =>
    match decode c with
    | .ok i => some i
    | .error _ => none

/-- The transaction word that makes the block run a table row's code: a transaction is its own word, a command byte
is the data of a write to CMD (spec/10_state.md R23). -/
def tableTransaction (nbits w : Nat) : TransactionWord :=
  if nbits ≤ 8 then commandWord (BitVec.ofNat 8 w) else BitVec.ofNat 48 w

end Sys2Proof
end

