-- ==== Sys2Proof/Machine/State.lean ====
section
/-! DEFINITION. The state of the block as plain data (spec/10_state.md R20, R42, R43), the reasons a step can stop,
and the state right after reset. The registers of STATUS are held as the fields they are (R30); the byte itself is
`statusByte` in Machine/Flags.lean. -/

namespace Sys2Proof.Machine

/-- The result codes (spec/60_exceptions.md R200); codes 8 to 15 are never written. -/
inductive ErrCode where
  | ok
  | invalidKeyLength
  | malformedCiphertext
  | paddingInvalid
  | illegalCommand
  | noSchedule
  | badOperand
  | lengthRange
deriving DecidableEq, Repr

/-- The CBC state machine (R32, spec/44_cbc_engine.md R168). -/
inductive CbcState where
  | idle
  | chaining
  | done
  | rejected
deriving DecidableEq, Repr

/-- What acts on the block from outside between transactions: a host transaction word (spec/45_host_bus.md R190) or
the reset input (spec/70_reset_and_hazards.md R230). -/
inductive HostInput where
  | word (w : TransactionWord)
  | reset
deriving DecidableEq, Repr

/-- A RAM: the bytes written since reset, as (offset, byte) pairs with strictly rising offsets. An offset that is not
listed has no value here; reading it gives the free byte of Config (log 3, log 14). -/
abbrev Memory := List Host.Cell

/-- Why a step stops the run. -/
inductive Fault where
  /-- BUS_ERROR (R205): raised by RD of an unmapped address and by WR to an unmapped or read-only address. The
  transaction changes no state, and the run of the host program ends here (R190). Safe: the spec itself ends the
  run. -/
  | busError (addr : Addr)
deriving DecidableEq, Repr

/-- Why a step refuses its input. -/
inductive Refusal where
  /-- Raised by `exec` alone, for an instruction without a meaning; this model has none. Safe. -/
  | notModelled (mnemonic : String)
  /-- Raised by `step` for a 48-bit word that spells no transaction (spec/30_encoding.md R89: "a decoder refuses it
  by name"). Safe: the spec gives the word no effect. -/
  | notATransaction (w : TransactionWord)
deriving DecidableEq, Repr

/-- The state. Fields of the spec first (R20, with the pending RNG request of R42 and the parameter of
spec/00_scope.md R6), then the model's own fields: the agents' inputs and outputs and the counters of the free
values. -/
structure State where
  /-- CMD (R23). -/
  cmd : Byte
  /-- STATUS.ERR (R31). -/
  err : ErrCode
  /-- STATUS.CBCST (R32). -/
  cbcst : CbcState
  /-- STATUS.SCHED_VALID (R33). -/
  schedValid : Bool
  /-- OPA (R24). -/
  opa : Byte
  /-- OPB (R24). -/
  opb : Byte
  /-- RES (R25). -/
  res : Byte
  /-- ROUND (R26). -/
  round : Byte
  /-- KEY (R27). -/
  key : Block
  /-- KEYLEN (R28). -/
  keyLen : Byte
  /-- STATE (R29). -/
  state : Block
  /-- RK[0..10] (R34). -/
  rk : Schedule
  /-- IN_LEN (R36). -/
  inLen : Count
  /-- OUT_LEN (R37). -/
  outLen : Count
  /-- IN_BUF (R38), by offset. -/
  inBuf : Memory
  /-- OUT_BUF RAM (R39), by offset. -/
  outBuf : Memory
  /-- A CBCE's RNG request is outstanding (R42). -/
  rngPending : Bool
  /-- The parameter IN_CAP (R6), constant over every step (log 2). -/
  inCap : InCap
  /-- The host transactions and resets still to come (log 1). -/
  inputs : List HostInput
  /-- The data byte of the host's latest RD (log 10). -/
  lastRead : Option Byte
  /-- What the next polls of the RNG port find; after the list, `Config.rngFree` (log 5). -/
  rngScript : List (Option Block)
  /-- The number of the next free RNG poll (log 5). -/
  rngPolls : Nat
  /-- RNG requests made since reset (log 17). -/
  rngRequests : Nat
  /-- The number of the latest reset, which selects its draws (log 3). -/
  epoch : Nat
deriving DecidableEq, Repr

/-- The state after reset (R43): every register 0, ERR = OK, CBCST = IDLE, SCHED_VALID = 0, RAM contents unlisted
and so free. IN_CAP is the block's, any legal capacity. No input is queued: a program is what the host sends
(log 1). -/
def State.reset : State where
  cmd := 0x00#8
  err := .ok
  cbcst := .idle
  schedValid := false
  opa := 0x00#8
  opb := 0x00#8
  res := 0x00#8
  round := 0x00#8
  key := ⟨⟨0, 0, 0, 0⟩, ⟨0, 0, 0, 0⟩, ⟨0, 0, 0, 0⟩, ⟨0, 0, 0, 0⟩⟩
  keyLen := 0x00#8
  state := ⟨⟨0, 0, 0, 0⟩, ⟨0, 0, 0, 0⟩, ⟨0, 0, 0, 0⟩, ⟨0, 0, 0, 0⟩⟩
  rk := Vector.replicate 11 ⟨⟨0, 0, 0, 0⟩, ⟨0, 0, 0, 0⟩, ⟨0, 0, 0, 0⟩, ⟨0, 0, 0, 0⟩⟩
  inLen := 0x00000000#32
  outLen := 0x00000000#32
  inBuf := []
  outBuf := []
  rngPending := false
  inCap := Config.inCap
  inputs := []
  lastRead := none
  rngScript := []
  rngPolls := 0
  rngRequests := 0
  epoch := 0

end Sys2Proof.Machine
end

