-- ==== Sys2Proof/Machine/Flags.lean ====
section
/-! DEFINITION. The STATUS register (spec/10_state.md R30): the codes of its fields, the byte the host reads, and the
one operation that writes ERR (R31). -/

namespace Sys2Proof.Machine

/-- The 4-bit code of a result (spec/60_exceptions.md R200). -/
def errCode : ErrCode → BitVec 4
  | .ok => 0
  | .invalidKeyLength => 1
  | .malformedCiphertext => 2
  | .paddingInvalid => 3
  | .illegalCommand => 4
  | .noSchedule => 5
  | .badOperand => 6
  | .lengthRange => 7

/-- The 2-bit code of the CBC state machine (R32). -/
def cbcCode : CbcState → BitVec 2
  | .idle => 0
  | .chaining => 1
  | .done => 2
  | .rejected => 3

/-- STATUS as the host reads it (R30): bit 7 hard-wired 0, SCHED_VALID in bit 6, CBCST in [5:4], ERR in [3:0]. -/
def statusByte (s : State) : Byte := 0#1 ++ BitVec.ofBool s.schedValid ++ cbcCode s.cbcst ++ errCode s.err

/-- A command's one write of ERR (R31). -/
def setErr (e : ErrCode) (s : State) : State := { s with err := e }

end Sys2Proof.Machine
end

