-- ==== Sys2Proof/Machine/Operands.lean ====
section
/-! DEFINITION. Operand forms: the flat-byte view of blocks (spec/00_scope.md R10, R11), the round-key file, the
little-endian counters (spec/20_memory.md R54), the capacities (R6), and the range checks of spec/30_encoding.md
R86. -/

namespace Sys2Proof.Machine

/-- Row `r` of a column; 0x00 beyond row 3. -/
def columnByte (w : Column) (r : Nat) : Byte :=
  match r with
  | 0 => w.r0
  | 1 => w.r1
  | 2 => w.r2
  | 3 => w.r3
  | _ => 0x00#8

/-- Column `c` of a block, its flat bytes [4c..4c+4) (R11); all zero beyond column 3. -/
def blockColumn (s : Block) (c : Nat) : Column :=
  match c with
  | 0 => s.c0
  | 1 => s.c1
  | 2 => s.c2
  | 3 => s.c3
  | _ => ⟨0x00#8, 0x00#8, 0x00#8, 0x00#8⟩

/-- Flat byte `k` of a block: row `k mod 4` of column `k div 4` (R11, spec/20_memory.md R52). -/
def blockByte (s : Block) (k : Nat) : Byte := columnByte (blockColumn s (k / 4)) (k % 4)

/-- The column whose row `r` is `f r`. -/
def columnOf (f : Nat → Byte) : Column := ⟨f 0, f 1, f 2, f 3⟩

/-- The block whose flat byte `k` is `f k`. -/
def blockOf (f : Nat → Byte) : Block :=
  ⟨columnOf f, columnOf fun r => f (4 + r), columnOf fun r => f (8 + r), columnOf fun r => f (12 + r)⟩

/-- A block with flat byte `k` replaced. -/
def setBlockByte (s : Block) (k : Nat) (v : Byte) : Block := blockOf fun j => if j = k then v else blockByte s j

/-- Bytewise exclusive-or of two columns. -/
def xorColumn (a b : Column) : Column := columnOf fun r => columnByte a r ^^^ columnByte b r

/-- Bytewise exclusive-or of two blocks. -/
def xorBlock (a b : Block) : Block := blockOf fun k => blockByte a k ^^^ blockByte b k

/-- The 16 flat bytes of a block, byte 0 first. -/
def blockBytes (s : Block) : List Byte := (List.range 16).map (blockByte s)

/-- The block of the first 16 bytes of a sequence. -/
def blockOfBytes (l : List Byte) : Block := blockOf fun k => l.getD k 0x00#8

/-- The first `n` 16-byte blocks of a byte sequence. -/
def blocksOfBytes : (n : Nat) → List Byte → List Block
  | 0, _ => []
  | n + 1, l => blockOfBytes l :: blocksOfBytes n (l.drop 16)

/-- The bytes of a list of blocks, in order. -/
def bytesOfBlocks (bs : List Block) : List Byte := bs.flatMap blockBytes

/-- RK[r] (R34); the all-zero block beyond RK[10], which no rule reads. -/
def roundKey (rk : Schedule) (r : Nat) : Block := rk.toList.getD r (blockOf fun _ => 0x00#8)

/-- Byte `j` of a 32-bit counter: bits [8j+7:8j] (R54). -/
def countByte (c : Count) (j : Nat) : Byte := c.extractLsb' (8 * j) 8

/-- A 32-bit counter with byte `j` replaced (R54). -/
def setCountByte (c : Count) (j : Nat) (v : Byte) : Count :=
  (c &&& ~~~(0xFF#32 <<< (8 * j))) ||| (v.setWidth 32 <<< (8 * j))

/-- IN_CAP in bytes (R6). -/
def inCapBytes (cap : InCap) : Nat := 16 * cap.extra.val + 32

/-- OUT_CAP = IN_CAP + 32 (R6). -/
def outCapBytes (cap : InCap) : Nat := inCapBytes cap + 32

/-- KEYLEN is legal when it equals 16 (R86). -/
def keyLenLegal (s : State) : Bool := s.keyLen == 0x10#8

/-- ROUND is legal for ARK when it is 0 to 10 (R86). -/
def roundLegal (s : State) : Bool := s.round.toNat ≤ 10

/-- IN_LEN is legal when it is at most IN_CAP (R86). -/
def inLenInRange (s : State) : Bool := s.inLen.toNat ≤ inCapBytes s.inCap

/-- IN_LEN is the length of an IV and at least one whole block (R86, R166 step 1). -/
def inLenWellShaped (s : State) : Bool := 32 ≤ s.inLen.toNat && (s.inLen.toNat - 16) % 16 == 0

end Sys2Proof.Machine
end

