-- ==== Sys2Proof/Machine/Ops.lean ====
section
/-! DEFINITION. The named operations shared by the meanings: the two RAMs, the RNG port, the write-backs of the
primitive and block commands, and error reporting. The block has no trap entry and no return (spec/60_exceptions.md
R207: "no state is saved, no vector is taken, no mode changes"); what a failing command does instead is the one
operation `failCommand`, with `failCbc` over it for the CBC commands. -/

namespace Sys2Proof.Machine

/-! ### RAM -/

/-- The byte written at offset `j` since reset, if any. -/
def Memory.lookup : Memory → (j : Nat) → Option Byte
  | [], _ => none
  | (k, v) :: m, j => if k = j then some v else Memory.lookup m j

/-- Write byte `v` at offset `j`, keeping the offsets strictly rising. -/
def Memory.write : Memory → (j : Nat) → (v : Byte) → Memory
  | [], j, v => [(j, v)]
  | (k, u) :: m, j, v =>
    if j < k then (j, v) :: (k, u) :: m
    else if j = k then (j, v) :: m
    else (k, u) :: Memory.write m j v

/-- Write a byte sequence from offset `j` on. -/
def Memory.writeBytes : Memory → (j : Nat) → List Byte → Memory
  | m, _, [] => m
  | m, j, v :: vs => Memory.writeBytes (Memory.write m j v) (j + 1) vs

/-- The canonical form: offsets strictly rising. An unlisted offset has no value, so no entry can equal it (log 14). -/
abbrev Memory.wf (m : Memory) : Prop := (m.map Prod.fst).Pairwise (· < ·)

/-- Every listed offset lies in a RAM of `size` bytes. -/
abbrev Memory.within (m : Memory) (size : Nat) : Prop := ∀ c ∈ m, c.1 < size

/-- IN_BUF byte `j`: the byte written since reset, else the reset's draw (R38, R43). -/
def inBufByte (s : State) (j : Nat) : Byte := (Memory.lookup s.inBuf j).getD (Config.inBufReset s.epoch j)

/-- OUT_BUF RAM byte `j`, behind the gate (R39). -/
def outBufRam (s : State) (j : Nat) : Byte := (Memory.lookup s.outBuf j).getD (Config.outBufReset s.epoch j)

/-- OUT_BUF byte `j` as the host reads it: 0x00 at or beyond OUT_LEN, whatever the RAM holds (spec/20_memory.md R57). -/
def outBufByte (s : State) (j : Nat) : Byte := if j < s.outLen.toNat then outBufRam s j else 0x00#8

/-- `InBuf(a, n)`: IN_BUF bytes [a..a+n) (R13). -/
def inBufBytes (s : State) (a n : Nat) : List Byte := (List.range n).map fun i => inBufByte s (a + i)

/-- `OutBufWrite(a, l)`: write a sequence to OUT_BUF RAM from offset `a` (R13). -/
def outBufWrite (a : Nat) (l : List Byte) (s : State) : State :=
  { s with outBuf := Memory.writeBytes s.outBuf a l }

/-- Host write of IN_BUF byte `j` (R38). -/
def inBufWrite (j : Nat) (v : Byte) (s : State) : State := { s with inBuf := Memory.write s.inBuf j v }

/-! ### The RNG port -/

/-- One poll of the RNG port (spec/44_cbc_engine.md R162): the answer if there is one, and the state with the poll
used up. -/
def rngPoll (s : State) : Option Block × State :=
  match s.rngScript with
  | a :: rest => (a, { s with rngScript := rest })
  | [] => (Config.rngFree s.rngPolls, { s with rngPolls := s.rngPolls + 1 })

/-- Issue the one RNG request of a CBCE (R162): the engine is CHAINING and the CMD write stays incomplete (R42). -/
def rngRequest (s : State) : State :=
  { s with cbcst := .chaining, rngPending := true, rngRequests := s.rngRequests + 1 }

/-! ### Results of commands -/

/-- A command that fails without touching anything but ERR (spec/60_exceptions.md R202). -/
def failCommand (e : ErrCode) (s : State) : State := setErr e s

/-- `fail_cbc(E, st)` (spec/44_cbc_engine.md R163). -/
def failCbc (e : ErrCode) (st : CbcState) (s : State) : State :=
  { failCommand e s with outLen := 0x00000000#32, cbcst := st }

/-- A primitive or block command that succeeds: the result goes back to STATE and ERR is OK (R29, R31). -/
def finishState (r : Block) (s : State) : State := setErr .ok { s with state := r }

/-- Write all 11 round keys and mark the schedule valid (R33, R34). -/
def installSchedule (rk : Schedule) (s : State) : State := { s with rk := rk, schedValid := true }

/-- A host write to KEY or KEYLEN makes the schedule stale and keeps its bytes (R27, R28, R34). -/
def clearSchedule (s : State) : State := { s with schedValid := false }

/-- The reset event (spec/70_reset_and_hazards.md R230): every piece of the block's state takes its reset value, and
the RAMs take new draws. IN_CAP, the other agents' inputs and what the host has read are not the block's to reset
(log 11). -/
def hardReset (s : State) : State :=
  { State.reset with
    inCap := s.inCap
    inputs := s.inputs
    lastRead := s.lastRead
    rngScript := s.rngScript
    rngPolls := s.rngPolls
    epoch := s.epoch + 1 }

end Sys2Proof.Machine
end

