-- ==== Sys2Proof/Machine/Galois.lean ====
section
/-! DEFINITION. The GaloisField unit and the constant ROMs (spec/40_galois_rom.md), and the meaning of GFMUL. -/

namespace Sys2Proof.Machine

/-! ### Constant ROMs -/

/-- Entry `i` of a ROM written as rows of 16 bytes, each row a number whose most significant byte is column 0. -/
def romByte (rows : List Nat) (i : Nat) : Byte := BitVec.ofNat 8 (rows.getD (i / 16) 0 >>> (8 * (15 - i % 16)))

/-- The rows h = 0..F of the forward S-box (R104). -/
def sboxRows : List Nat :=
  [0x637c777bf26b6fc53001672bfed7ab76,
   0xca82c97dfa5947f0add4a2af9ca472c0,
   0xb7fd9326363ff7cc34a5e5f171d83115,
   0x04c723c31896059a071280e2eb27b275,
   0x09832c1a1b6e5aa0523bd6b329e32f84,
   0x53d100ed20fcb15b6acbbe394a4c58cf,
   0xd0efaafb434d338545f9027f503c9fa8,
   0x51a3408f929d38f5bcb6da2110fff3d2,
   0xcd0c13ec5f974417c4a77e3d645d1973,
   0x60814fdc222a908846eeb814de5e0bdb,
   0xe0323a0a4906245cc2d3ac629195e479,
   0xe7c8376d8dd54ea96c56f4ea657aae08,
   0xba78252e1ca6b4c6e8dd741f4bbd8b8a,
   0x703eb5664803f60e613557b986c11d9e,
   0xe1f8981169d98e949b1e87e9ce5528df,
   0x8ca1890dbfe6426841992d0fb054bb16]

/-- The rows h = 0..F of the inverse S-box (R105). -/
def invSboxRows : List Nat :=
  [0x52096ad53036a538bf40a39e81f3d7fb,
   0x7ce339829b2fff87348e4344c4dee9cb,
   0x547b9432a6c2233dee4c950b42fac34e,
   0x082ea16628d924b2765ba2496d8bd125,
   0x72f8f66486689816d4a45ccc5d65b692,
   0x6c704850fdedb9da5e154657a78d9d84,
   0x90d8ab008cbcd30af7e45805b8b34506,
   0xd02c1e8fca3f0f02c1afbd0301138a6b,
   0x3a9111414f67dcea97f2cfcef0b4e673,
   0x96ac7422e7ad3585e2f937e81c75df6e,
   0x47f11a711d29c5896fb7620eaa18be1b,
   0xfc563e4bc6d279209adbc0fe78cd5af4,
   0x1fdda8338807c731b11210592780ec5f,
   0x60517fa919b54a0d2de57a9f93c99cef,
   0xa0e03b4dae2af5b0c8ebbb3c83539961,
   0x172b047eba77d626e169146355210c7d]

/-- SBOX[x] (R104). -/
def sbox (x : Byte) : Byte := romByte sboxRows x.toNat

/-- INV_SBOX[x] (R105). -/
def invSbox (x : Byte) : Byte := romByte invSboxRows x.toNat

/-- RCON, indexed 0 to 9 (R106). -/
def rconBytes : List Byte := [0x01#8, 0x02#8, 0x04#8, 0x08#8, 0x10#8, 0x20#8, 0x40#8, 0x80#8, 0x1b#8, 0x36#8]

/-- RCON[i] (R106); 0x00 beyond the ROM, which no rule reads. -/
def rcon (i : Nat) : Byte := rconBytes.getD i 0x00#8

/-! ### GF(2^8) multiplication -/

/-- The left shift of R100's loop, reduced by 0x1B when it overflows the top bit. -/
def xtime (a : Byte) : Byte := if a.getLsbD 7 then (a <<< 1) ^^^ 0x1B#8 else a <<< 1

/-- `n` rounds of R100's loop on (a, b, p); the answer is p. -/
def gmulLoop : (n : Nat) → (a b p : Byte) → Byte
  | 0, _, _, p => p
  | n + 1, a, b, p => gmulLoop n (xtime a) (b >>> 1) (if b.getLsbD 0 then p ^^^ a else p)

/-- gmul(a, b) (R100). -/
def gmul (a b : Byte) : Byte := gmulLoop 8 a b 0x00#8

/-- GFMUL (R102): RES <- gmul(OPA, OPB); it cannot fail. -/
def execGfmul (s : State) : Host.Outcome State Fault Refusal :=
  .next (setErr .ok { s with res := gmul s.opa s.opb })

end Sys2Proof.Machine
end

