-- ==== Sys2Proof/Machine/KeySchedule.lean ====
section
/-! DEFINITION. The KeySchedule unit (spec/41_key_schedule.md) and the meaning of KEYEXP. -/

namespace Sys2Proof.Machine

/-- RotWord: rotate a column left by one byte (R120). -/
def rotWord (w : Column) : Column := ⟨w.r1, w.r2, w.r3, w.r0⟩

/-- SubWord: each byte through the forward S-box (R120). -/
def subWord (w : Column) : Column := ⟨sbox w.r0, sbox w.r1, sbox w.r2, sbox w.r3⟩

/-- RCON[i] on byte 0 only (R121; spec/90_conflicts.md C6). -/
def addRcon (i : Nat) (w : Column) : Column := { w with r0 := w.r0 ^^^ rcon i }

/-- Round key i+1 from round key i (R121). -/
def nextRoundKey (i : Nat) (k : Block) : Block :=
  let t := addRcon i (subWord (rotWord k.c3))
  let c0 := xorColumn k.c0 t
  let c1 := xorColumn c0 k.c1
  let c2 := xorColumn c1 k.c2
  let c3 := xorColumn c2 k.c3
  ⟨c0, c1, c2, c3⟩

/-- rk[r] of `expand`, by recursion on r. -/
def expandedKey (k : Block) : (r : Nat) → Block
  | 0 => k
  | i + 1 => nextRoundKey i (expandedKey k i)

/-- expand(K): the 11 round keys (R121). -/
def expand (k : Block) : Schedule :=
  let k1 := nextRoundKey 0 k
  let k2 := nextRoundKey 1 k1
  let k3 := nextRoundKey 2 k2
  let k4 := nextRoundKey 3 k3
  let k5 := nextRoundKey 4 k4
  let k6 := nextRoundKey 5 k5
  let k7 := nextRoundKey 6 k6
  let k8 := nextRoundKey 7 k7
  let k9 := nextRoundKey 8 k8
  let k10 := nextRoundKey 9 k9
  #v[k, k1, k2, k3, k4, k5, k6, k7, k8, k9, k10]

/-- KEYEXP (R122). -/
def execKeyexp (s : State) : Host.Outcome State Fault Refusal :=
  .next <|
    if keyLenLegal s then setErr .ok (installSchedule (expand s.key) s)
    else failCommand .invalidKeyLength s

end Sys2Proof.Machine
end

