-- ==== Sys2Proof/Machine/RoundTransforms.lean ====
section
/-! DEFINITION. The round primitives (spec/42_round_transforms.md): the functions on blocks and the meanings of SUBB,
ISUBB, SHR, ISHR, MIXC, IMIXC and ARK. -/

namespace Sys2Proof.Machine

/-- SubBytes (R130). -/
def subBytes (s : Block) : Block := blockOf fun k => sbox (blockByte s k)

/-- InvSubBytes (R131). -/
def invSubBytes (s : Block) : Block := blockOf fun k => invSbox (blockByte s k)

/-- The flat byte k = 4c + r of a block comes from byte 4·(c' mod 4) + r, where c' is `source c r`. -/
def permuteRows (source : (c r : Nat) → Nat) (s : Block) : Block :=
  blockOf fun k => blockByte s (4 * (source (k / 4) (k % 4) % 4) + k % 4)

/-- ShiftRows: row r rotated left by r (R132). -/
def shiftRows (s : Block) : Block := permuteRows (fun c r => c + r) s

/-- InvShiftRows: row r rotated right by r (R133). -/
def invShiftRows (s : Block) : Block := permuteRows (fun c r => c + 4 - r) s

/-- One column through MixColumns (R134). -/
def mixColumn (a : Column) : Column where
  r0 := gmul 0x02 a.r0 ^^^ gmul 0x03 a.r1 ^^^ a.r2 ^^^ a.r3
  r1 := a.r0 ^^^ gmul 0x02 a.r1 ^^^ gmul 0x03 a.r2 ^^^ a.r3
  r2 := a.r0 ^^^ a.r1 ^^^ gmul 0x02 a.r2 ^^^ gmul 0x03 a.r3
  r3 := gmul 0x03 a.r0 ^^^ a.r1 ^^^ a.r2 ^^^ gmul 0x02 a.r3

/-- One column through InvMixColumns, the canonical matrix (R135; spec/90_conflicts.md C2). -/
def invMixColumn (a : Column) : Column where
  r0 := gmul 0x0e a.r0 ^^^ gmul 0x0b a.r1 ^^^ gmul 0x0d a.r2 ^^^ gmul 0x09 a.r3
  r1 := gmul 0x09 a.r0 ^^^ gmul 0x0e a.r1 ^^^ gmul 0x0b a.r2 ^^^ gmul 0x0d a.r3
  r2 := gmul 0x0d a.r0 ^^^ gmul 0x09 a.r1 ^^^ gmul 0x0e a.r2 ^^^ gmul 0x0b a.r3
  r3 := gmul 0x0b a.r0 ^^^ gmul 0x0d a.r1 ^^^ gmul 0x09 a.r2 ^^^ gmul 0x0e a.r3

/-- MixColumns (R134). -/
def mixColumns (s : Block) : Block := ⟨mixColumn s.c0, mixColumn s.c1, mixColumn s.c2, mixColumn s.c3⟩

/-- InvMixColumns (R135). -/
def invMixColumns (s : Block) : Block := ⟨invMixColumn s.c0, invMixColumn s.c1, invMixColumn s.c2, invMixColumn s.c3⟩

/-- AddRoundKey (R136). -/
def addRoundKey (s k : Block) : Block := xorBlock s k

/-- SUBB (R130). -/
def execSubb (s : State) : Host.Outcome State Fault Refusal := .next (finishState (subBytes s.state) s)

/-- ISUBB (R131). -/
def execIsubb (s : State) : Host.Outcome State Fault Refusal := .next (finishState (invSubBytes s.state) s)

/-- SHR (R132). -/
def execShr (s : State) : Host.Outcome State Fault Refusal := .next (finishState (shiftRows s.state) s)

/-- ISHR (R133). -/
def execIshr (s : State) : Host.Outcome State Fault Refusal := .next (finishState (invShiftRows s.state) s)

/-- MIXC (R134). -/
def execMixc (s : State) : Host.Outcome State Fault Refusal := .next (finishState (mixColumns s.state) s)

/-- IMIXC (R135). -/
def execImixc (s : State) : Host.Outcome State Fault Refusal := .next (finishState (invMixColumns s.state) s)

/-- ARK (R136): NO_SCHEDULE is checked before BAD_OPERAND. -/
def execArk (s : State) : Host.Outcome State Fault Refusal :=
  .next <|
    if !s.schedValid then failCommand .noSchedule s
    else if !roundLegal s then failCommand .badOperand s
    else finishState (addRoundKey s.state (roundKey s.rk s.round.toNat)) s

end Sys2Proof.Machine
end

