-- ==== Sys2Proof/Machine/BlockCipher.lean ====
section
/-! DEFINITION. The block pipelines (spec/43_block_cipher.md) and the meanings of ENCB and DECB. -/

namespace Sys2Proof.Machine

/-- A forward round with MixColumns (R150, rounds 1 to 9). -/
def encryptRound (k s : Block) : Block := addRoundKey (mixColumns (shiftRows (subBytes s))) k

/-- Forward round 10, which never mixes columns (R150). -/
def encryptLast (k s : Block) : Block := addRoundKey (shiftRows (subBytes s)) k

/-- An inverse round with InvMixColumns (R151, rounds 9 down to 1). -/
def decryptRound (k s : Block) : Block := invMixColumns (addRoundKey (invSubBytes (invShiftRows s)) k)

/-- The last inverse round, without InvMixColumns (R151; spec/90_conflicts.md C1). -/
def decryptLast (k s : Block) : Block := addRoundKey (invSubBytes (invShiftRows s)) k

/-- Forward rounds 1 to n. -/
def encryptRounds (rk : Schedule) : (n : Nat) → Block → Block
  | 0, s => s
  | n + 1, s => encryptRound (roundKey rk (n + 1)) (encryptRounds rk n s)

/-- Inverse rounds n down to 1. -/
def decryptRounds (rk : Schedule) : (n : Nat) → Block → Block
  | 0, s => s
  | n + 1, s => decryptRounds rk n (decryptRound (roundKey rk (n + 1)) s)

/-- encrypt_block(s, rk) (R150). -/
def encryptBlock (s : Block) (rk : Schedule) : Block :=
  encryptLast (roundKey rk 10) (encryptRounds rk 9 (addRoundKey s (roundKey rk 0)))

/-- decrypt_block(s, rk) (R151). -/
def decryptBlock (s : Block) (rk : Schedule) : Block :=
  decryptLast (roundKey rk 0) (decryptRounds rk 9 (addRoundKey s (roundKey rk 10)))

/-- ENCB (R150). -/
def execEncb (s : State) : Host.Outcome State Fault Refusal :=
  .next <|
    if !s.schedValid then failCommand .noSchedule s
    else finishState (encryptBlock s.state s.rk) s

/-- DECB (R151). -/
def execDecb (s : State) : Host.Outcome State Fault Refusal :=
  .next <|
    if !s.schedValid then failCommand .noSchedule s
    else finishState (decryptBlock s.state s.rk) s

end Sys2Proof.Machine
end

