-- ==== Sys2Proof/Machine/Cbc.lean ====
section
/-! DEFINITION. The CBC mode engine (spec/44_cbc_engine.md) and the meanings of CBCE and CBCD. The chain value, the
working block, the IV and the block counter are local to a command (spec/10_state.md R41). -/

namespace Sys2Proof.Machine

/-- The pad length P = 16 - (L mod 16), always 1 to 16 (R161). -/
def padLength (len : Nat) : Nat := 16 - len % 16

/-- pad(m) (R161). -/
def pad (m : List Byte) : List Byte :=
  m ++ List.replicate (padLength m.length) (BitVec.ofNat 8 (padLength m.length))

/-- The ciphertext blocks C_0, C_1, … of CBCE step 4, in order, from a chain value (R164). -/
def cbcEncrypt (rk : Schedule) : (chain : Block) → List Block → List Block
  | _, [] => []
  | chain, m :: ms =>
    let c := encryptBlock (xorBlock m chain) rk
    c :: cbcEncrypt rk c ms

/-- The recovered blocks p_0, p_1, … of CBCD step 4, in order, from a chain value; the next chain value is the
ciphertext block (R166). -/
def cbcDecrypt (rk : Schedule) : (chain : Block) → List Block → List Block
  | _, [] => []
  | chain, c :: cs => xorBlock (decryptBlock c rk) chain :: cbcDecrypt rk c cs

/-- The last byte of a recovered message, its pad length if the padding is valid (R165). -/
def lastByte (p : List Byte) : Byte := p.getD (p.length - 1) 0x00#8

/-- padding_valid(p) (R165). -/
def paddingValid (p : List Byte) : Bool :=
  let n := (lastByte p).toNat
  1 ≤ n && n ≤ 16 && (p.drop (p.length - n)).all (· == lastByte p)

/-- The CbcStream CBCE writes: IV ‖ C_0 ‖ … ‖ C_{N-1} (R160, R164 steps 3 to 5). -/
def cbceStream (iv : Block) (s : State) : List Byte :=
  let m := pad (inBufBytes s 0 s.inLen.toNat)
  blockBytes iv ++ bytesOfBlocks (cbcEncrypt (expand s.key) iv (blocksOfBytes (m.length / 16) m))

/-- CBCE from the RNG's answer to its end (R164 steps 2 to 5): the request is answered and the CMD write completes. -/
def cbceFinish (iv : Block) (s : State) : State :=
  let out := cbceStream iv s
  let n := s.inLen.toNat / 16 + 1
  { setErr .ok (installSchedule (expand s.key) (outBufWrite 0 out s)) with
    outLen := BitVec.ofNat 32 (16 + 16 * n)
    cbcst := .done
    rngPending := false }

/-- A CBCE whose RNG request is outstanding polls the RNG port (R162): it completes with the answer, or waits with
nothing else changed. -/
def cbceResume (s : State) : Host.Outcome State Fault Refusal :=
  match rngPoll s with
  | (some iv, s') => .next (cbceFinish iv s')
  | (none, s') => .next s'

/-- CBCE (R164): the prechecks in order, then the RNG request and its first poll. -/
def execCbce (s : State) : Host.Outcome State Fault Refusal :=
  if !inLenInRange s then .next (failCbc .lengthRange .idle s)
  else if !keyLenLegal s then .next (failCbc .invalidKeyLength .idle s)
  else cbceResume (rngRequest s)

/-- The message CBCD recovers, p_0 ‖ … ‖ p_{N-1} (R166 steps 2 to 4). -/
def cbcdRecovered (s : State) : List Byte :=
  let n := (s.inLen.toNat - 16) / 16
  bytesOfBlocks (cbcDecrypt (expand s.key) (blockOfBytes (inBufBytes s 0 16)) (blocksOfBytes n (inBufBytes s 16 (16 * n))))

/-- The plaintext of a recovered message with valid padding (R166 step 6). -/
def unpad (p : List Byte) : List Byte := p.take (p.length - (lastByte p).toNat)

/-- CBCD with valid padding (R166 step 6): the plaintext is written and the engine is DONE. -/
def cbcdFinish (p : List Byte) (s : State) : State :=
  { setErr .ok (outBufWrite 0 (unpad p) s) with
    outLen := BitVec.ofNat 32 (p.length - (lastByte p).toNat)
    cbcst := .done }

/-- CBCD (R166): LENGTH_RANGE, INVALID_KEY_LENGTH, MALFORMED_CIPHERTEXT, then the schedule and the blocks, then
PADDING_INVALID or the plaintext. -/
def execCbcd (s : State) : Host.Outcome State Fault Refusal :=
  .next <|
    if !inLenInRange s then failCbc .lengthRange .idle s
    else if !keyLenLegal s then failCbc .invalidKeyLength .idle s
    else if !inLenWellShaped s then failCbc .malformedCiphertext .idle s
    else
      let p := cbcdRecovered s
      let s' := installSchedule (expand s.key) s
      if paddingValid p then cbcdFinish p s' else failCbc .paddingInvalid .rejected s'

end Sys2Proof.Machine
end

