-- ==== Sys2Proof/Machine/HostBus.lean ====
section
/-! DEFINITION. The host bus: the address map (spec/20_memory.md R51), the command a CMD write executes
(spec/30_encoding.md R82, spec/60_exceptions.md R201), and the meanings of RD and WR (spec/45_host_bus.md R191,
R192). -/

namespace Sys2Proof.Machine

/-- The mapped names of R51. -/
inductive RegionName where
  | cmd | status | inLen | outLen | keyLen | round | opa | opb | res | key | state | rk
  | sboxRom | invSboxRom | rconRom | inBuf | outBuf
deriving DecidableEq, Repr

/-- One mapped row of R51: its first address, its size in bytes, and whether the host may write it (RW) or not (RO). -/
structure Region where
  name : RegionName
  base : Nat
  size : Nat
  writable : Bool
deriving DecidableEq, Repr

/-- The address map (R51): every address of no row is unmapped. -/
def addressMap (cap : InCap) : List Region :=
  [⟨.cmd, 0x00000000, 1, true⟩,
   ⟨.status, 0x00000001, 1, false⟩,
   ⟨.inLen, 0x00000004, 4, true⟩,
   ⟨.outLen, 0x00000008, 4, false⟩,
   ⟨.keyLen, 0x0000000C, 1, true⟩,
   ⟨.round, 0x0000000D, 1, true⟩,
   ⟨.opa, 0x0000000E, 1, true⟩,
   ⟨.opb, 0x0000000F, 1, true⟩,
   ⟨.res, 0x00000010, 1, false⟩,
   ⟨.key, 0x00000020, 16, true⟩,
   ⟨.state, 0x00000030, 16, true⟩,
   ⟨.rk, 0x00000100, 176, false⟩,
   ⟨.sboxRom, 0x00000200, 256, false⟩,
   ⟨.invSboxRom, 0x00000300, 256, false⟩,
   ⟨.rconRom, 0x00000400, 10, false⟩,
   ⟨.inBuf, 0x00100000, inCapBytes cap, true⟩,
   ⟨.outBuf, 0x00200000, outCapBytes cap, false⟩]

/-- A region holds an address. -/
def regionCovers (a : Nat) (r : Region) : Bool := r.base ≤ a && a < r.base + r.size

/-- The region of an address, if it is mapped. -/
def locate (cap : InCap) (a : Addr) : Option Region := (addressMap cap).find? (regionCovers a.toNat)

/-- `value(a)` of R191: the byte at offset `j` of a mapped region. -/
def regionByte (n : RegionName) (j : Nat) (s : State) : Byte :=
  match n with
  | .cmd => s.cmd
  | .status => statusByte s
  | .inLen => countByte s.inLen j
  | .outLen => countByte s.outLen j
  | .keyLen => s.keyLen
  | .round => s.round
  | .opa => s.opa
  | .opb => s.opb
  | .res => s.res
  | .key => blockByte s.key j
  | .state => blockByte s.state j
  | .rk => blockByte (roundKey s.rk (j / 16)) (j % 16)
  | .sboxRom => sbox (BitVec.ofNat 8 j)
  | .invSboxRom => invSbox (BitVec.ofNat 8 j)
  | .rconRom => rcon j
  | .inBuf => inBufByte s j
  | .outBuf => outBufByte s j

/-- What a RD of `a` returns, or nothing where it is a BUS_ERROR. -/
def hostRead (s : State) (a : Addr) : Option Byte :=
  (locate s.inCap a).map fun r => regionByte r.name (a.toNat - r.base) s

/-- RD (R191): the byte goes to the host; a read changes no state of the block (R58). -/
def execRd (a : Addr) (s : State) : Host.Outcome State Fault Refusal :=
  match hostRead s a with
  | some v => .next { s with lastRead := some v }
  | none => .fault (.busError a)

/-- ILLEGAL (R201): ERR <- ILLEGAL_COMMAND and nothing else; CMD already holds the byte. -/
def execIllegal (s : State) : Host.Outcome State Fault Refusal := .next (failCommand .illegalCommand s)

/-- `execute(v)` of R192: the command rule of `v`, or ILLEGAL when `v` is none of R82's bytes. RD and WR are no
commands: no byte decodes to them. -/
def executeCommand (v : Byte) (s : State) : Host.Outcome State Fault Refusal :=
  match decodeCommand v with
  | .ok .gfmul => execGfmul s
  | .ok .keyexp => execKeyexp s
  | .ok .subb => execSubb s
  | .ok .isubb => execIsubb s
  | .ok .shr => execShr s
  | .ok .ishr => execIshr s
  | .ok .mixc => execMixc s
  | .ok .imixc => execImixc s
  | .ok .ark => execArk s
  | .ok .encb => execEncb s
  | .ok .decb => execDecb s
  | .ok .cbce => execCbce s
  | .ok .cbcd => execCbcd s
  | .ok (.rd _) => execIllegal s
  | .ok (.wr _ _) => execIllegal s
  | .error _ => execIllegal s

/-- The `case` of R192: store `v` at offset `j` of a writable region. Only CMD, KEY and KEYLEN have an effect beyond
the store (R58). The read-only names are refused before, by the map's access column. -/
def storeRegion (a : Addr) (n : RegionName) (j : Nat) (v : Byte) (s : State) : Host.Outcome State Fault Refusal :=
  match n with
  | .cmd => executeCommand v { s with cmd := v }
  | .inLen => .next { s with inLen := setCountByte s.inLen j v }
  | .keyLen => .next (clearSchedule { s with keyLen := v })
  | .round => .next { s with round := v }
  | .opa => .next { s with opa := v }
  | .opb => .next { s with opb := v }
  | .key => .next (clearSchedule { s with key := setBlockByte s.key j v })
  | .state => .next { s with state := setBlockByte s.state j v }
  | .inBuf => .next (inBufWrite j v s)
  | .status | .outLen | .res | .rk | .sboxRom | .invSboxRom | .rconRom | .outBuf => .fault (.busError a)

/-- WR (R192): BUS_ERROR when the address is unmapped or read-only (R205), else the store and, for CMD, the command. -/
def execWr (a : Addr) (v : Byte) (s : State) : Host.Outcome State Fault Refusal :=
  match locate s.inCap a with
  | none => .fault (.busError a)
  | some r => if r.writable then storeRegion a r.name (a.toNat - r.base) v s else .fault (.busError a)

end Sys2Proof.Machine
end

