-- ==== Sys2Proof/Machine/Dispatch.lean ====
section
/-! DEFINITION. One arm per instruction. The command arms are what the write to CMD runs (R23); the step itself
reaches them through the arm of WR. -/

namespace Sys2Proof.Machine

def exec (i : Instr) (s : State) : Host.Outcome State Fault Refusal :=
  match i with
  | .gfmul => Sys2Proof.Machine.execGfmul s
  | .keyexp => Sys2Proof.Machine.execKeyexp s
  | .subb => Sys2Proof.Machine.execSubb s
  | .isubb => Sys2Proof.Machine.execIsubb s
  | .shr => Sys2Proof.Machine.execShr s
  | .ishr => Sys2Proof.Machine.execIshr s
  | .mixc => Sys2Proof.Machine.execMixc s
  | .imixc => Sys2Proof.Machine.execImixc s
  | .ark => Sys2Proof.Machine.execArk s
  | .encb => Sys2Proof.Machine.execEncb s
  | .decb => Sys2Proof.Machine.execDecb s
  | .cbce => Sys2Proof.Machine.execCbce s
  | .cbcd => Sys2Proof.Machine.execCbcd s
  | .rd a => Sys2Proof.Machine.execRd a s
  | .wr a v => Sys2Proof.Machine.execWr a v s

end Sys2Proof.Machine
end

