-- ==== Sys2Proof/Machine/Step.lean ====
section
/-! DEFINITION. One step: one host transaction (spec/45_host_bus.md R190), one reset event (spec/70_reset_and_hazards.md
R230), or one poll of the RNG port by a CBCE whose CMD write has not completed (spec/44_cbc_engine.md R162). -/

namespace Sys2Proof.Machine

/-- Perform a transaction word, or refuse it by name when it spells no transaction (R89). -/
def runWord (w : TransactionWord) (s : State) : Host.Outcome State Fault Refusal :=
  match decodeTransaction w with
  | .ok i => exec i s
  | .error _ => .refused (.notATransaction w)

/-- One step. While an RNG request is outstanding the CMD write has not completed, so no input is taken (R42). With
no input left the block is idle and keeps all its state (R213, R231; log 7). -/
def step (s : State) : Host.Outcome State Fault Refusal :=
  if s.rngPending then cbceResume s
  else
    match s.inputs with
    | [] => .next s
    | .reset :: rest => .next (hardReset { s with inputs := rest })
    | .word w :: rest => runWord w { s with inputs := rest }

/-- `s` with a table row's code as the host's next transaction, so that the very next step performs it: a transaction
word is itself, a command byte is the data of a write to CMD (log 12). No earlier transaction is still waiting. -/
def State.withFetchWord (s : State) (nbits w : Nat) : State :=
  { s with inputs := .word (tableTransaction nbits w) :: s.inputs, rngPending := false }

end Sys2Proof.Machine
end

