-- ==== Sys2Proof/Machine/HostProgram.lean ====
section
/-! DEFINITION. Host programs (spec/45_host_bus.md R190): the pseudo-instructions and their exact expansions
(spec/30_encoding.md R91), the words of a program (R88), and a state whose host is about to perform one. -/

namespace Sys2Proof.Machine

/-- A pseudo-instruction (R91). -/
inductive Pseudo where
  /-- `CMD m`: write the byte of command `m` to CMD. -/
  | cmd (m : Instr)
  /-- `WRN a, h`: write the bytes `h` from address `a` on. -/
  | wrn (a : Addr) (h : List Byte)
  /-- `RDN a, n`: read `n` bytes from address `a` on. -/
  | rdn (a : Addr) (n : Nat)
  /-- `LDKEY h`. -/
  | ldkey (h : Block)
  /-- `LDSTATE h`. -/
  | ldstate (h : Block)
  /-- `LDIN h`. -/
  | ldin (h : List Byte)
  /-- `SETLEN n`. -/
  | setlen (n : Count)
  /-- `RDSTATUS`. -/
  | rdstatus
deriving DecidableEq, Repr

/-- A line of a host program: a transaction or a pseudo-instruction. -/
inductive HostLine where
  | transaction (i : Instr)
  | pseudo (p : Pseudo)
deriving DecidableEq, Repr

/-- The host address of offset `j` of a row of the map (spec/20_memory.md R51). -/
def hostAddr (base j : Nat) : Addr := BitVec.ofNat 32 (base + j)

/-- `WR a+0, b_0` … `WR a+n-1, b_{n-1}` in that order. Where `a+i` leaves the address space R91 says nothing; there the
address wraps, and `Pseudo.wellFormed` refuses the line (DESIGN CHOICE, log 21). -/
def writeBytesAt : (a : Addr) → List Byte → List Instr
  | _, [] => []
  | a, b :: h => .wr a b :: writeBytesAt (a + 1) h

/-- `RD a+0` … `RD a+n-1` in that order, with `writeBytesAt`'s choice beyond the address space (log 21). -/
def readBytesAt : (a : Addr) → (n : Nat) → List Instr
  | _, 0 => []
  | a, n + 1 => .rd a :: readBytesAt (a + 1) n

/-- The four writes of `SETLEN n` (R91; little-endian, spec/20_memory.md R54). -/
def setLenWrites (n : Count) : List Instr := writeBytesAt (hostAddr 0x4 0) ((List.range 4).map (countByte n))

/-- The expansion of a pseudo-instruction (R91). `CMD m` of a transaction, which is no command, expands to nothing;
`Pseudo.wellFormed` refuses it. -/
def Pseudo.expansion : Pseudo → List Instr
  | .cmd m =>
    match encode m with
    | .command v => [.wr cmdAddr v]
    | .transaction _ => []
  | .wrn a h => writeBytesAt a h
  | .rdn a n => readBytesAt a n
  | .ldkey h => writeBytesAt (hostAddr 0x20 0) (blockBytes h) ++ [.wr (hostAddr 0xC 0) 0x10#8]
  | .ldstate h => writeBytesAt (hostAddr 0x30 0) (blockBytes h)
  | .ldin h => writeBytesAt (hostAddr 0x100000 0) h ++ setLenWrites (BitVec.ofNat 32 h.length)
  | .setlen n => setLenWrites n
  | .rdstatus => [.rd (hostAddr 0x1 0)]

/-- A pseudo-instruction whose operands R91 admits: `m` names a command, and the bytes that WRN, RDN or LDIN touches
have 32-bit addresses. R91 is silent on a byte range that leaves the address space; that such a line is refused, for
`LDIN h` as for the `WRN IN_BUF, h` it begins with, is the model's choice (DESIGN CHOICE, log 21). Every `LDIN h` that
is left has a length that fits IN_LEN. -/
def Pseudo.wellFormed : Pseudo → Bool
  | .cmd m =>
    match encode m with
    | .command _ => true
    | .transaction _ => false
  | .wrn a h => a.toNat + h.length ≤ 2 ^ 32
  | .rdn a n => a.toNat + n ≤ 2 ^ 32
  | .ldin h => 0x100000 + h.length ≤ 2 ^ 32
  | .ldkey _ | .ldstate _ | .setlen _ | .rdstatus => true

/-- The transactions of a line (R91: a pseudo-instruction "encodes as the words of its expansion"). -/
def HostLine.expansion : HostLine → List Instr
  | .transaction i => [i]
  | .pseudo p => p.expansion

/-- The word of a transaction (R88); a command stands for the write to CMD that runs it. -/
def instrWord (i : Instr) : TransactionWord :=
  match encode i with
  | .command v => commandWord v
  | .transaction w => w

/-- The words of a host program, in list order (R190). -/
def programWords (p : List HostLine) : List TransactionWord := (p.flatMap HostLine.expansion).map instrWord

/-- `s` with a host that is about to perform program `p`, and nothing after it (log 1). -/
def State.withProgram (s : State) (p : List HostLine) : State :=
  { s with inputs := (programWords p).map .word }

/-- The host has performed its whole list and no CMD write is in progress: the normal end of a run (R190 (a)). -/
def programDone (s : State) : Bool := s.inputs.isEmpty && !s.rngPending

end Sys2Proof.Machine
end

