-- ==== Sys2Proof/Safety.lean ====
section
/-! DEFINITION. The terms claims use: the invariant of the block, the address ranges of the map as plain ranges
(spec/20_memory.md R51), polynomial multiplication over GF(2) (spec/00_scope.md R12), and which instructions run a CBC
command. -/

namespace Sys2Proof.Machine

/-- The invariant of the block between steps. -/
structure Inv (s : State) : Prop where
  /-- R35: a valid schedule is the expansion of the key, and the key length is 16. -/
  schedule : s.schedValid = true → s.keyLen = 0x10#8 ∧ s.rk = expand s.key
  /-- R32, R42: the engine is CHAINING exactly while a CBCE's RNG request is outstanding. -/
  chaining : s.cbcst = .chaining ↔ s.rngPending = true
  /-- R164: a request is outstanding only after the prechecks of CBCE passed. -/
  accepted : s.rngPending = true → s.keyLen = 0x10#8 ∧ s.inLen.toNat ≤ inCapBytes s.inCap
  /-- IN_BUF keeps its canonical form. -/
  inBufWf : Memory.wf s.inBuf
  /-- R38: IN_BUF has IN_CAP bytes. -/
  inBufWithin : Memory.within s.inBuf (inCapBytes s.inCap)
  /-- OUT_BUF keeps its canonical form. -/
  outBufWf : Memory.wf s.outBuf
  /-- R39: OUT_BUF has OUT_CAP bytes. -/
  outBufWithin : Memory.within s.outBuf (outCapBytes s.inCap)
  /-- R170: OUT_LEN never exceeds OUT_CAP. -/
  outLenFits : s.outLen.toNat ≤ outCapBytes s.inCap
  /-- R39, R57: every byte the gate lets through was written by a CBC command. -/
  outLenWritten : ∀ j, j < s.outLen.toNat → (Memory.lookup s.outBuf j).isSome = true

/-- The addresses a RD may read (R51), as ranges. -/
def mappedAddr (cap : InCap) (n : Nat) : Prop :=
  n ≤ 0x1 ∨ (0x4 ≤ n ∧ n ≤ 0x10) ∨ (0x20 ≤ n ∧ n ≤ 0x3F) ∨ (0x100 ≤ n ∧ n ≤ 0x1AF) ∨ (0x200 ≤ n ∧ n ≤ 0x409) ∨
    (0x100000 ≤ n ∧ n < 0x100000 + inCapBytes cap) ∨ (0x200000 ≤ n ∧ n < 0x200000 + outCapBytes cap)

/-- The addresses a WR may write (R51, the RW rows), as ranges. -/
def writableAddr (cap : InCap) (n : Nat) : Prop :=
  n = 0x0 ∨ (0x4 ≤ n ∧ n ≤ 0x7) ∨ (0xC ≤ n ∧ n ≤ 0xF) ∨ (0x20 ≤ n ∧ n ≤ 0x3F) ∨
    (0x100000 ≤ n ∧ n < 0x100000 + inCapBytes cap)

/-- The product of two polynomials over GF(2) of degree below `n` in the second factor, as 16-bit coefficient words
(R12): the sum of the shifts of `a` that `b` selects. -/
def polyMul : (n : Nat) → (a b : BitVec 16) → BitVec 16
  | 0, _, _ => 0
  | n + 1, a, b => polyMul n a b ^^^ (if b.getLsbD n then a <<< n else 0)

/-- The instruction runs a CBC command: CBCE or CBCD, or the write to CMD that starts one. -/
def runsCbc : Instr → Bool
  | .cbce => true
  | .cbcd => true
  | .wr a v => a == cmdAddr && (v == 0x40#8 || v == 0x41#8)
  | .gfmul | .keyexp | .subb | .isubb | .shr | .ishr | .mixc | .imixc | .ark | .encb | .decb | .rd _ => false

/-- The instruction is one of the thirteen commands of R82. -/
def isCommand : Instr → Bool
  | .rd _ | .wr _ _ => false
  | .gfmul | .keyexp | .subb | .isubb | .shr | .ishr | .mixc | .imixc | .ark | .encb | .decb | .cbce | .cbcd => true

end Sys2Proof.Machine
end

