-- ==== Sys2Proof/Certificates/Slice0/Obligations.lean ====
section
/-! DEFINITION. The statements for the provers. Each is a rule of spec/ or a consequence of several; OBLIGATIONS.json
names the rule. `exec i s = .next t` says that the instruction completes; a written-out record `{ s with … }` as the
next state states the frame too: every field it does not name, both RAMs among them, is unchanged. -/

open Sys2Proof Sys2Proof.Machine

/-! ### GaloisField and ROMs -/

/-- R100: gmul is the product of polynomials over GF(2) reduced modulo 0x11B: the product is a multiple of 0x11B plus
gmul(a, b), whose degree is below 8. With the rule's worked examples. -/
def Obligations.GmulIsProductModulo11B : Prop :=
  (∀ a b : Byte, ∃ q : Byte,
    polyMul 8 (a.setWidth 16) (b.setWidth 16) = polyMul 8 0x11B#16 (q.setWidth 16) ^^^ (gmul a b).setWidth 16) ∧
  gmul 0x57 0x13 = 0xFE ∧ gmul 0x57 0x01 = 0x57

/-- R103: the laws of gmul. -/
def Obligations.GmulFieldLaws : Prop :=
  (∀ a b : Byte, gmul a b = gmul b a) ∧
  (∀ a b c : Byte, gmul (gmul a b) c = gmul a (gmul b c)) ∧
  (∀ a b c : Byte, gmul a (b ^^^ c) = gmul a b ^^^ gmul a c) ∧
  (∀ a : Byte, gmul a 0x01 = a ∧ gmul 0x01 a = a ∧ gmul a 0x00 = 0x00 ∧ gmul 0x00 a = 0x00) ∧
  (∀ a : Byte, a ≠ 0x00 → ∃ b, gmul a b = 0x01 ∧ ∀ b', gmul a b' = 0x01 → b' = b) ∧
  (∀ a : Byte, gmul a 0x02 = (a <<< 1) ^^^ (if a.getLsbD 7 then 0x1B else 0x00))

/-- R102: GFMUL writes RES and ERR and nothing else, in every state. -/
def Obligations.GfmulWritesProduct : Prop :=
  ∀ s : State, exec .gfmul s = .next { s with res := gmul s.opa s.opb, err := .ok }

/-- R105, R104, R106: the S-box tables are inverse permutations, SBOX has no fixed point, RCON doubles in GF(2^8), and
the entries the rules print. -/
def Obligations.RomTablesAgree : Prop :=
  (∀ x : Byte, invSbox (sbox x) = x ∧ sbox (invSbox x) = x ∧ sbox x ≠ x) ∧
  (rcon 0 = 0x01 ∧ ∀ i, i < 9 → rcon (i + 1) = gmul (rcon i) 0x02) ∧
  sbox 0x00 = 0x63 ∧ sbox 0x53 = 0xED ∧ sbox 0xFF = 0x16 ∧
  invSbox 0x63 = 0x00 ∧ invSbox 0x00 = 0x52 ∧ invSbox 0x16 = 0xFF

/-- R107: each S-box entry is the affine image of the gmul inverse of its index, with 0x00 mapped to 0x00. -/
def Obligations.SboxIsAffineOfInverse : Prop :=
  ∀ x y : Byte, (gmul x y = 0x01 ∨ (x = 0x00 ∧ y = 0x00)) →
    sbox x = y ^^^ y.rotateLeft 1 ^^^ y.rotateLeft 2 ^^^ y.rotateLeft 3 ^^^ y.rotateLeft 4 ^^^ 0x63

/-! ### Key schedule -/

/-- R121 with R120: the bytes of the 11 round keys, by rows and columns. -/
def Obligations.ExpandFollowsRecurrence : Prop :=
  ∀ k : Block, roundKey (expand k) 0 = k ∧
    ∀ i, i < 10 → ∀ r, r < 4 →
      blockByte (roundKey (expand k) (i + 1)) r =
        blockByte (roundKey (expand k) i) r ^^^
          (sbox (blockByte (roundKey (expand k) i) (12 + (r + 1) % 4)) ^^^ (if r = 0 then rcon i else 0x00)) ∧
      ∀ c, 1 ≤ c → c < 4 →
        blockByte (roundKey (expand k) (i + 1)) (4 * c + r) =
          blockByte (roundKey (expand k) (i + 1)) (4 * (c - 1) + r) ^^^ blockByte (roundKey (expand k) i) (4 * c + r)

/-- R122: KEYEXP expands the key when KEYLEN is 16 and fails with INVALID_KEY_LENGTH otherwise. -/
def Obligations.KeyexpExpandsOrRejects : Prop :=
  ∀ s : State,
    (s.keyLen = 0x10 → exec .keyexp s = .next { s with rk := expand s.key, schedValid := true, err := .ok }) ∧
    (s.keyLen ≠ 0x10 → exec .keyexp s = .next { s with err := .invalidKeyLength })

/-- R123: two expansions of the same KEY, by KEYEXP, CBCE or CBCD, write the same RK whatever else differs between the
states. A command has expanded the key when it has completed with OK or PADDING_INVALID. -/
def Obligations.ExpansionDependsOnKeyAlone : Prop :=
  ∀ (i j : Instr) (s s' t t' : State), i ∈ [Instr.keyexp, .cbce, .cbcd] → j ∈ [Instr.keyexp, .cbce, .cbcd] →
    s.key = s'.key → exec i s = .next t → exec j s' = .next t' →
    t.rngPending = false → t'.rngPending = false →
    t.err ∈ [ErrCode.ok, .paddingInvalid] → t'.err ∈ [ErrCode.ok, .paddingInvalid] →
    t.rk = t'.rk ∧ t.schedValid = true ∧ t'.schedValid = true

/-! ### Round primitives -/

/-- R130, R131: SUBB and ISUBB replace every byte of STATE through its ROM and change nothing but STATE and ERR. -/
def Obligations.SubBytesCommands : Prop :=
  ∀ s : State,
    (∃ t, exec .subb s = .next t ∧ t = { s with state := t.state, err := .ok } ∧
      ∀ k, k < 16 → blockByte t.state k = sbox (blockByte s.state k)) ∧
    (∃ t, exec .isubb s = .next t ∧ t = { s with state := t.state, err := .ok } ∧
      ∀ k, k < 16 → blockByte t.state k = invSbox (blockByte s.state k))

/-- R132, R133: SHR and ISHR rotate row r of STATE by r and change nothing but STATE and ERR. -/
def Obligations.ShiftRowsCommands : Prop :=
  ∀ s : State,
    (∃ t, exec .shr s = .next t ∧ t = { s with state := t.state, err := .ok } ∧
      ∀ c r, c < 4 → r < 4 → blockByte t.state (4 * c + r) = blockByte s.state (4 * ((c + r) % 4) + r)) ∧
    (∃ t, exec .ishr s = .next t ∧ t = { s with state := t.state, err := .ok } ∧
      ∀ c r, c < 4 → r < 4 → blockByte t.state (4 * c + r) = blockByte s.state (4 * ((c + 4 - r) % 4) + r))

/-- R134, R135: MIXC and IMIXC multiply each column of STATE by their matrix and change nothing but STATE and ERR. -/
def Obligations.MixColumnsCommands : Prop :=
  ∀ s : State,
    (∃ t, exec .mixc s = .next t ∧ t = { s with state := t.state, err := .ok } ∧
      ∀ c r, c < 4 → r < 4 →
        blockByte t.state (4 * c + r) =
          gmul 0x02 (blockByte s.state (4 * c + r)) ^^^ gmul 0x03 (blockByte s.state (4 * c + (r + 1) % 4)) ^^^
            gmul 0x01 (blockByte s.state (4 * c + (r + 2) % 4)) ^^^ gmul 0x01 (blockByte s.state (4 * c + (r + 3) % 4))) ∧
    (∃ t, exec .imixc s = .next t ∧ t = { s with state := t.state, err := .ok } ∧
      ∀ c r, c < 4 → r < 4 →
        blockByte t.state (4 * c + r) =
          gmul 0x0e (blockByte s.state (4 * c + r)) ^^^ gmul 0x0b (blockByte s.state (4 * c + (r + 1) % 4)) ^^^
            gmul 0x0d (blockByte s.state (4 * c + (r + 2) % 4)) ^^^ gmul 0x09 (blockByte s.state (4 * c + (r + 3) % 4)))

/-- R136: ARK in its three cases, NO_SCHEDULE before BAD_OPERAND. -/
def Obligations.ArkXorsRoundKey : Prop :=
  ∀ s : State,
    (s.schedValid = false → exec .ark s = .next { s with err := .noSchedule }) ∧
    (s.schedValid = true → 10 < s.round.toNat → exec .ark s = .next { s with err := .badOperand }) ∧
    (s.schedValid = true → s.round.toNat ≤ 10 →
      ∃ t, exec .ark s = .next t ∧ t = { s with state := t.state, err := .ok } ∧
        ∀ j, j < 16 → blockByte t.state j = blockByte s.state j ^^^ blockByte (roundKey s.rk s.round.toNat) j)

/-- R137: each primitive's inverse undoes it, AddRoundKey undoes itself, SubBytes and ShiftRows commute. (The 16-byte
size is the type Block.) -/
def Obligations.PrimitivesHaveInverses : Prop :=
  ∀ s k : Block,
    invSubBytes (subBytes s) = s ∧ invShiftRows (shiftRows s) = s ∧ invMixColumns (mixColumns s) = s ∧
    addRoundKey (addRoundKey s k) k = s ∧ subBytes (shiftRows s) = shiftRows (subBytes s)

/-! ### Block pipeline -/

/-- R150: ENCB runs rounds 1 to 10 from the first AddRoundKey on, without MixColumns in round 10, and changes nothing
but STATE and ERR; without a schedule it fails. -/
def Obligations.EncbRunsTenRounds : Prop :=
  ∀ s : State,
    (s.schedValid = true → ∃ x : Nat → Block,
      x 0 = addRoundKey s.state (roundKey s.rk 0) ∧
      (∀ r, 1 ≤ r → r ≤ 9 → x r = addRoundKey (mixColumns (shiftRows (subBytes (x (r - 1))))) (roundKey s.rk r)) ∧
      x 10 = addRoundKey (shiftRows (subBytes (x 9))) (roundKey s.rk 10) ∧
      exec .encb s = .next { s with state := x 10, err := .ok }) ∧
    (s.schedValid = false → exec .encb s = .next { s with err := .noSchedule })

/-- R151: DECB runs the inverse rounds with the round keys in reverse order, without InvMixColumns in the last, and
changes nothing but STATE and ERR; without a schedule it fails. -/
def Obligations.DecbRunsInverseRounds : Prop :=
  ∀ s : State,
    (s.schedValid = true → ∃ x : Nat → Block,
      x 10 = addRoundKey s.state (roundKey s.rk 10) ∧
      (∀ r, 1 ≤ r → r ≤ 9 → x r = invMixColumns (addRoundKey (invSubBytes (invShiftRows (x (r + 1)))) (roundKey s.rk r))) ∧
      x 0 = addRoundKey (invSubBytes (invShiftRows (x 1))) (roundKey s.rk 0) ∧
      exec .decb s = .next { s with state := x 0, err := .ok }) ∧
    (s.schedValid = false → exec .decb s = .next { s with err := .noSchedule })

/-- R152: DECB undoes ENCB and ENCB undoes DECB, in every state with a valid schedule and for every RK, and so for
every RK = expand(K); under a fixed expanded schedule encrypt_block is a permutation of the blocks. -/
def Obligations.EncbAndDecbAreInverse : Prop :=
  (∀ s t : State, s.schedValid = true →
    (exec .encb s = .next t → exec .decb t = .next { s with err := .ok }) ∧
    (exec .decb s = .next t → exec .encb t = .next { s with err := .ok })) ∧
  ∀ k b : Block,
    decryptBlock (encryptBlock b (expand k)) (expand k) = b ∧ encryptBlock (decryptBlock b (expand k)) (expand k) = b ∧
    ∃ a, encryptBlock a (expand k) = b ∧ ∀ a', encryptBlock a' (expand k) = b → a' = a

/-! ### CBC engine -/

/-- R164: CBCE. The two prechecks in order; then, when the RNG answers, the wire format of R160: the IV, and each
ciphertext block the encryption of the padded message block exclusive-or the block before it in the stream. N is
L div 16 + 1 and the pad byte is 16 - L mod 16 (R161). Only the fields named change, and no OUT_BUF byte at or beyond
OUT_LEN. (The answer is what a poll of the model's RNG port finds, log 5; a CBCE without an answer: CbceWaitsForRng.) -/
def Obligations.CbceWritesStream : Prop :=
  ∀ s : State,
    (inCapBytes s.inCap < s.inLen.toNat →
      exec .cbce s = .next { s with err := .lengthRange, outLen := 0, cbcst := .idle }) ∧
    (s.inLen.toNat ≤ inCapBytes s.inCap → s.keyLen ≠ 0x10 →
      exec .cbce s = .next { s with err := .invalidKeyLength, outLen := 0, cbcst := .idle }) ∧
    (∀ iv, s.inLen.toNat ≤ inCapBytes s.inCap → s.keyLen = 0x10 → (rngPoll s).1 = some iv →
      ∃ t, exec .cbce s = .next t ∧
        t = { s with outBuf := t.outBuf, outLen := t.outLen, rk := expand s.key, schedValid := true, cbcst := .done,
                     err := .ok, rngPending := false, rngRequests := s.rngRequests + 1,
                     rngScript := (rngPoll s).2.rngScript, rngPolls := (rngPoll s).2.rngPolls } ∧
        t.outLen.toNat = 16 + 16 * (s.inLen.toNat / 16 + 1) ∧
        (∀ j, j < 16 → outBufByte t j = blockByte iv j) ∧
        (∀ i, i < s.inLen.toNat / 16 + 1 → ∀ k, k < 16 →
          outBufByte t (16 + 16 * i + k) =
            blockByte (encryptBlock (blockOf fun j =>
              (if 16 * i + j < s.inLen.toNat then inBufByte s (16 * i + j)
                else BitVec.ofNat 8 (16 - s.inLen.toNat % 16)) ^^^ outBufByte t (16 * i + j)) (expand s.key)) k) ∧
        (∀ j, t.outLen.toNat ≤ j → outBufRam t j = outBufRam s j))

/-- R162 in the model's representation (log 6): a CBCE whose request is not answered has not completed. Its prechecks
passed, it is CHAINING with the request outstanding; a step whose poll finds no answer changes nothing but the RNG
port's own list and counter and takes no host input; the step whose poll finds one completes the command, whatever the
answer is, with no second request. In a state that meets the invariant that step leaves all that CbceWritesStream says
of an answer at the first poll, wherever the answer comes from: the stream in OUT_BUF, OUT_LEN, the expanded RK, and
every field not named unchanged, as is every OUT_BUF byte at or beyond OUT_LEN. -/
def Obligations.CbceWaitsForRng : Prop :=
  ∀ s : State,
    (s.inLen.toNat ≤ inCapBytes s.inCap → s.keyLen = 0x10 → (rngPoll s).1 = none →
      exec .cbce s = .next { s with cbcst := .chaining, rngPending := true, rngRequests := s.rngRequests + 1,
                                    rngScript := (rngPoll s).2.rngScript, rngPolls := (rngPoll s).2.rngPolls }) ∧
    (s.rngPending = true → (rngPoll s).1 = none →
      step s = .next { s with rngScript := (rngPoll s).2.rngScript, rngPolls := (rngPoll s).2.rngPolls }) ∧
    (s.rngPending = true → ∀ iv, (rngPoll s).1 = some iv →
      ∃ t, step s = .next t ∧ t.rngPending = false ∧ t.cbcst = .done ∧ t.err = .ok ∧ t.inputs = s.inputs ∧
        t.rngRequests = s.rngRequests) ∧
    (Inv s → s.rngPending = true → ∀ iv, (rngPoll s).1 = some iv →
      ∃ t, step s = .next t ∧
        t = { s with outBuf := t.outBuf, outLen := t.outLen, rk := expand s.key, schedValid := true, cbcst := .done,
                     err := .ok, rngPending := false,
                     rngScript := (rngPoll s).2.rngScript, rngPolls := (rngPoll s).2.rngPolls } ∧
        t.outLen.toNat = 16 + 16 * (s.inLen.toNat / 16 + 1) ∧
        (∀ j, j < 16 → outBufByte t j = blockByte iv j) ∧
        (∀ i, i < s.inLen.toNat / 16 + 1 → ∀ k, k < 16 →
          outBufByte t (16 + 16 * i + k) =
            blockByte (encryptBlock (blockOf fun j =>
              (if 16 * i + j < s.inLen.toNat then inBufByte s (16 * i + j)
                else BitVec.ofNat 8 (16 - s.inLen.toNat % 16)) ^^^ outBufByte t (16 * i + j)) (expand s.key)) k) ∧
        (∀ j, t.outLen.toNat ≤ j → outBufRam t j = outBufRam s j))

/-- R162 in the model's representation (logs 5 and 6): a CBCE whose RNG answers after k unanswered polls reaches, k steps later, the very state it would have
reached with an immediate answer. -/
def Obligations.CbceCompletesWhenRngAnswers : Prop :=
  ∀ (s t : State) (k : Nat) (iv : Block) (rest : List (Option Block)) (more : List HostInput),
    s.rngPending = false → s.inputs = .word (commandWord 0x40) :: more →
    s.inLen.toNat ≤ inCapBytes s.inCap → s.keyLen = 0x10 →
    s.rngScript = List.replicate k none ++ some iv :: rest →
    step { s with rngScript := some iv :: rest } = .next t →
    Host.Core.run Sys2Proof.core (k + 1) s = .next t

/-- R166: CBCD. The prechecks in order; then, with the recovered bytes p (byte k of block i is that byte of
decrypt_block(C_i) exclusive-or the stream byte 16 places before C_i's), either the padding is valid and OUT_BUF holds
the plaintext, or nothing is readable and the engine is REJECTED. Only the fields named change. -/
def Obligations.CbcdRecoversPlaintext : Prop :=
  ∀ s : State,
    (inCapBytes s.inCap < s.inLen.toNat →
      exec .cbcd s = .next { s with err := .lengthRange, outLen := 0, cbcst := .idle }) ∧
    (s.inLen.toNat ≤ inCapBytes s.inCap → s.keyLen ≠ 0x10 →
      exec .cbcd s = .next { s with err := .invalidKeyLength, outLen := 0, cbcst := .idle }) ∧
    (s.inLen.toNat ≤ inCapBytes s.inCap → s.keyLen = 0x10 →
      (s.inLen.toNat < 32 ∨ (s.inLen.toNat - 16) % 16 ≠ 0) →
      exec .cbcd s = .next { s with err := .malformedCiphertext, outLen := 0, cbcst := .idle }) ∧
    (s.inLen.toNat ≤ inCapBytes s.inCap → s.keyLen = 0x10 → 32 ≤ s.inLen.toNat → (s.inLen.toNat - 16) % 16 = 0 →
      ∀ p : Nat → Byte,
      (∀ i, i < (s.inLen.toNat - 16) / 16 → ∀ k, k < 16 →
        p (16 * i + k) =
          blockByte (decryptBlock (blockOf fun j => inBufByte s (16 + 16 * i + j)) (expand s.key)) k ^^^
            inBufByte s (16 * i + k)) →
      ∀ n, n = (p (s.inLen.toNat - 17)).toNat →
      ((1 ≤ n ∧ n ≤ 16 ∧ ∀ j, s.inLen.toNat - 16 - n ≤ j → j < s.inLen.toNat - 16 → (p j).toNat = n) →
        ∃ t, exec .cbcd s = .next t ∧
          t = { s with outBuf := t.outBuf, outLen := t.outLen, rk := expand s.key, schedValid := true, cbcst := .done,
                       err := .ok } ∧
          t.outLen.toNat = s.inLen.toNat - 16 - n ∧
          (∀ j, j < t.outLen.toNat → outBufByte t j = p j) ∧
          (∀ j, t.outLen.toNat ≤ j → outBufRam t j = outBufRam s j)) ∧
      (¬(1 ≤ n ∧ n ≤ 16 ∧ ∀ j, s.inLen.toNat - 16 - n ≤ j → j < s.inLen.toNat - 16 → (p j).toNat = n) →
        exec .cbcd s = .next { s with err := .paddingInvalid, outLen := 0, cbcst := .rejected, rk := expand s.key,
                                      schedValid := true }))

/-- R172: length rejection processes no block and leaves RK and SCHED_VALID unchanged. -/
def Obligations.CbcdRejectsBadLength : Prop :=
  ∀ s : State, s.inLen.toNat ≤ inCapBytes s.inCap → s.keyLen = 0x10 →
    (s.inLen.toNat < 32 ∨ s.inLen.toNat % 16 ≠ 0) →
    ∃ t, exec .cbcd s = .next t ∧ t.err = .malformedCiphertext ∧ t.rk = s.rk ∧ t.schedValid = s.schedValid ∧
      t.outBuf = s.outBuf

/-- R163 with R57: after any CBC command that ends in an error, every OUT_BUF read of the host returns 0x00. -/
def Obligations.FailedCbcHidesOutput : Prop :=
  ∀ (i : Instr) (s t : State) (a : Addr), i ∈ [Instr.cbce, .cbcd] → exec i s = .next t → t.rngPending = false →
    t.err ≠ .ok → 0x200000 ≤ a.toNat → a.toNat < 0x200000 + outCapBytes t.inCap →
    exec (.rd a) t = .next { t with lastRead := some 0x00 }

/-- R169: the CBC round trip. A CBCE of a message of at most IN_CAP - 32 bytes completes for every answer of the RNG, and
any state with the same KEY and KEYLEN whose IN_BUF holds its OUT_BUF[0..OUT_LEN) and whose IN_LEN is its OUT_LEN gives
the message back by CBCD. (The RNG answer is that of the first poll of the model's port, log 5.) -/
def Obligations.CbcRoundTrip : Prop :=
  ∀ (s : State) (iv : Block),
    s.inLen.toNat + 32 ≤ inCapBytes s.inCap → s.keyLen = 0x10 → (rngPoll s).1 = some iv →
    ∃ t, exec .cbce s = .next t ∧ t.err = .ok ∧
      ∀ s' : State, s'.key = t.key → s'.keyLen = t.keyLen → s'.inCap = t.inCap → s'.inLen = t.outLen →
        (∀ j, j < t.outLen.toNat → inBufByte s' j = outBufByte t j) →
        ∃ u, exec .cbcd s' = .next u ∧ u.err = .ok ∧ u.cbcst = .done ∧ u.outLen = s.inLen ∧
          ∀ j, j < s.inLen.toNat → outBufByte u j = inBufByte s j

/-- R170: the output lengths of successful CBC commands. -/
def Obligations.CbcOutputLengths : Prop :=
  (∀ s t : State, exec .cbce s = .next t → t.rngPending = false → t.err = .ok →
    t.outLen.toNat = 32 + 16 * (s.inLen.toNat / 16) ∧ t.outLen.toNat ≤ outCapBytes t.inCap) ∧
  (∀ s t : State, exec .cbcd s = .next t → t.err = .ok →
    ∃ n, 1 ≤ n ∧ n ≤ 16 ∧ t.outLen.toNat = s.inLen.toNat - 16 - n ∧
      s.inLen.toNat - 32 ≤ t.outLen.toNat ∧ t.outLen.toNat ≤ s.inLen.toNat - 17)

/-- R171: changing byte j of the stream block before the last ciphertext block (C_{N-2}, or the IV when N = 1) changes
byte j of the last recovered block by the same exclusive-or, and no other byte of that block. -/
def Obligations.TamperedChainFlipsPlaintext : Prop :=
  ∀ (s : State) (j k : Nat) (v : Byte), 32 ≤ s.inLen.toNat → s.inLen.toNat % 16 = 0 → j < 16 → k < 16 →
    (cbcdRecovered (inBufWrite (s.inLen.toNat - 32 + j) v s)).getD (s.inLen.toNat - 32 + k) 0x00 =
      (cbcdRecovered s).getD (s.inLen.toNat - 32 + k) 0x00 ^^^
        (if k = j then inBufByte s (s.inLen.toNat - 32 + j) ^^^ v else 0x00)

/-- R168: the CBC state machine. An instruction that runs no CBC command leaves CBCST unchanged; a CBC command ends in
IDLE after a failed precheck, in DONE after success, in REJECTED after invalid padding, and is CHAINING only while it
waits for the RNG. -/
def Obligations.CbcStateMachine : Prop :=
  ∀ (i : Instr) (s t : State), s.rngPending = false → exec i s = .next t →
    (runsCbc i = false → t.cbcst = s.cbcst) ∧
    (runsCbc i = true →
      (t.rngPending = true ∧ t.cbcst = .chaining) ∨
      (t.rngPending = false ∧ t.cbcst = .idle ∧ t.err ∈ [ErrCode.lengthRange, .invalidKeyLength, .malformedCiphertext]) ∨
      (t.rngPending = false ∧ t.cbcst = .done ∧ t.err = .ok) ∨
      (t.rngPending = false ∧ t.cbcst = .rejected ∧ t.err = .paddingInvalid))

/-! ### Host bus -/

/-- R191: RD of every mapped address returns its byte to the host and changes nothing else; RD of any other address is a
BUS_ERROR. -/
def Obligations.RdReturnsMappedByte : Prop :=
  ∀ (s : State) (a : Addr), (¬ mappedAddr s.inCap a.toNat → exec (.rd a) s = .fault (.busError a)) ∧
  ∀ v : Byte, exec (.rd a) s = .next { s with lastRead := some v } ↔
    (a.toNat = 0x0 ∧ v = s.cmd) ∨
    (a.toNat = 0x1 ∧ v = statusByte s) ∨
    (∃ j, j < 4 ∧ a.toNat = 0x4 + j ∧ v = s.inLen.extractLsb' (8 * j) 8) ∨
    (∃ j, j < 4 ∧ a.toNat = 0x8 + j ∧ v = s.outLen.extractLsb' (8 * j) 8) ∨
    (a.toNat = 0xC ∧ v = s.keyLen) ∨ (a.toNat = 0xD ∧ v = s.round) ∨ (a.toNat = 0xE ∧ v = s.opa) ∨
    (a.toNat = 0xF ∧ v = s.opb) ∨ (a.toNat = 0x10 ∧ v = s.res) ∨
    (∃ k, k < 16 ∧ a.toNat = 0x20 + k ∧ v = blockByte s.key k) ∨
    (∃ k, k < 16 ∧ a.toNat = 0x30 + k ∧ v = blockByte s.state k) ∨
    (∃ r k, r < 11 ∧ k < 16 ∧ a.toNat = 0x100 + 16 * r + k ∧ v = blockByte (roundKey s.rk r) k) ∨
    (∃ x : Byte, a.toNat = 0x200 + x.toNat ∧ v = sbox x) ∨
    (∃ x : Byte, a.toNat = 0x300 + x.toNat ∧ v = invSbox x) ∨
    (∃ i, i < 10 ∧ a.toNat = 0x400 + i ∧ v = rcon i) ∨
    (∃ j, j < inCapBytes s.inCap ∧ a.toNat = 0x100000 + j ∧ v = inBufByte s j) ∨
    (∃ j, j < outCapBytes s.inCap ∧ a.toNat = 0x200000 + j ∧
      v = if j < s.outLen.toNat then outBufRam s j else 0x00)

/-- R205 with R51: BUS_ERROR exactly at a RD of an unmapped address and a WR to an unmapped or read-only one; every
other transaction answers a next state. -/
def Obligations.BusErrorExactlyOffTheMap : Prop :=
  ∀ (s : State) (a : Addr) (v : Byte),
    (¬ mappedAddr s.inCap a.toNat → exec (.rd a) s = .fault (.busError a)) ∧
    (mappedAddr s.inCap a.toNat → ∃ t, exec (.rd a) s = .next t) ∧
    (¬ writableAddr s.inCap a.toNat → exec (.wr a v) s = .fault (.busError a)) ∧
    (writableAddr s.inCap a.toNat → ∃ t, exec (.wr a v) s = .next t)

/-- R192: WR to every writable address stores its byte; a CMD write then executes it, a KEY or KEYLEN write clears
SCHED_VALID; nothing else changes; any other address is a BUS_ERROR. -/
def Obligations.WrStoresByte : Prop :=
  ∀ (s : State) (a : Addr) (v : Byte),
    (¬ writableAddr s.inCap a.toNat → exec (.wr a v) s = .fault (.busError a)) ∧
    (a.toNat = 0x0 →
      (∀ i, decodeCommand v = .ok i → exec (.wr a v) s = exec i { s with cmd := v }) ∧
      (∀ e, decodeCommand v = .error e → exec (.wr a v) s = .next { s with cmd := v, err := .illegalCommand })) ∧
    (∀ j, j < 4 → a.toNat = 0x4 + j → ∃ c : Count, exec (.wr a v) s = .next { s with inLen := c } ∧
      ∀ i, i < 4 → c.extractLsb' (8 * i) 8 = if i = j then v else s.inLen.extractLsb' (8 * i) 8) ∧
    (a.toNat = 0xC → exec (.wr a v) s = .next { s with keyLen := v, schedValid := false }) ∧
    (a.toNat = 0xD → exec (.wr a v) s = .next { s with round := v }) ∧
    (a.toNat = 0xE → exec (.wr a v) s = .next { s with opa := v }) ∧
    (a.toNat = 0xF → exec (.wr a v) s = .next { s with opb := v }) ∧
    (∀ k, k < 16 → a.toNat = 0x20 + k → ∃ b : Block, exec (.wr a v) s = .next { s with key := b, schedValid := false } ∧
      ∀ i, i < 16 → blockByte b i = if i = k then v else blockByte s.key i) ∧
    (∀ k, k < 16 → a.toNat = 0x30 + k → ∃ b : Block, exec (.wr a v) s = .next { s with state := b } ∧
      ∀ i, i < 16 → blockByte b i = if i = k then v else blockByte s.state i) ∧
    (∀ j, j < inCapBytes s.inCap → a.toNat = 0x100000 + j →
      ∃ t, exec (.wr a v) s = .next t ∧ t = { s with inBuf := t.inBuf } ∧
        ∀ i, inBufByte t i = if i = j then v else inBufByte s i)

/-- R62: a RD after a WR to the same location (CMD too, whatever the command does) returns the byte written, and after
a WR to any location but CMD every other location but STATUS reads as before. -/
def Obligations.ReadReturnsLatestWrite : Prop :=
  ∀ (s t : State) (a : Addr) (v : Byte), exec (.wr a v) s = .next t →
    exec (.rd a) t = .next { t with lastRead := some v } ∧
    ∀ b : Addr, a ≠ cmdAddr → b ≠ a → b ≠ 0x1 → hostRead t b = hostRead s b

/-- R23: a write to CMD stores its byte and then executes its command, ILLEGAL when it is none; the command keeps CMD, and
a read of CMD returns the byte, legal or not. -/
def Obligations.CmdWriteRunsCommand : Prop :=
  ∀ (s : State) (v : Byte),
    (∀ i, decodeCommand v = .ok i → exec (.wr cmdAddr v) s = exec i { s with cmd := v }) ∧
    (∀ e, decodeCommand v = .error e → exec (.wr cmdAddr v) s = .next { s with cmd := v, err := .illegalCommand }) ∧
    ∃ t, exec (.wr cmdAddr v) s = .next t ∧ t.cmd = v ∧ exec (.rd cmdAddr) t = .next { t with lastRead := some v }

/-- R201 with R83: a write to CMD of any other byte stores it, sets ERR to ILLEGAL_COMMAND and changes nothing else. -/
def Obligations.IllegalCommandEffect : Prop :=
  ∀ (s : State) (v : Byte),
    v ∉ [0x02#8, 0x10#8, 0x20#8, 0x21#8, 0x22#8, 0x23#8, 0x24#8, 0x25#8, 0x26#8, 0x30#8, 0x31#8, 0x40#8, 0x41#8] →
    exec (.wr cmdAddr v) s = .next { s with cmd := v, err := .illegalCommand }

/-- R30: the fields of the STATUS byte, with the number of each result code (R200) and of each CBC state (R32). -/
def Obligations.StatusByteLayout : Prop :=
  ∀ s : State,
    (statusByte s).extractLsb' 0 4 = errCode s.err ∧ (statusByte s).extractLsb' 4 2 = cbcCode s.cbcst ∧
    (statusByte s).getLsbD 6 = s.schedValid ∧ (statusByte s).getLsbD 7 = false ∧ (errCode s.err).toNat ≤ 7 ∧
    errCode .ok = 0 ∧ errCode .invalidKeyLength = 1 ∧ errCode .malformedCiphertext = 2 ∧ errCode .paddingInvalid = 3 ∧
    errCode .illegalCommand = 4 ∧ errCode .noSchedule = 5 ∧ errCode .badOperand = 6 ∧ errCode .lengthRange = 7 ∧
    cbcCode .idle = 0 ∧ cbcCode .chaining = 1 ∧ cbcCode .done = 2 ∧ cbcCode .rejected = 3

/-- R32: between transactions the host never reads CBCST = 1, in any state that meets the invariant. -/
def Obligations.HostNeverReadsChaining : Prop :=
  ∀ (s t : State) (v : Byte), Inv s → s.rngPending = false → exec (.rd 0x1) s = .next t → t.lastRead = some v →
    v.extractLsb' 4 2 ≠ 1

/-! ### Whole-machine rules -/

/-- R33: SCHED_VALID rises only by KEYEXP, CBCE or CBCD (or the CMD write that runs one), falls only by a write to KEY or
KEYLEN, and no other instruction changes it. -/
def Obligations.SchedValidEvents : Prop :=
  ∀ (i : Instr) (s t : State), exec i s = .next t →
    (s.schedValid = false → t.schedValid = true →
      i ∈ [Instr.keyexp, .cbce, .cbcd, .wr cmdAddr 0x10, .wr cmdAddr 0x40, .wr cmdAddr 0x41]) ∧
    (s.schedValid = true → t.schedValid = false →
      ∃ a v, i = .wr a v ∧ (a.toNat = 0xC ∨ (0x20 ≤ a.toNat ∧ a.toNat < 0x30))) ∧
    (∀ a v, i = .wr a v → (a.toNat = 0xC ∨ (0x20 ≤ a.toNat ∧ a.toNat < 0x30)) → t.schedValid = false)

/-- R34: every instruction leaves RK unchanged or writes all 11 entries at once with the expansion of KEY. -/
def Obligations.RkWrittenOnlyByExpansion : Prop :=
  ∀ (i : Instr) (s t : State), exec i s = .next t → t.rk = s.rk ∨ (t.rk = expand s.key ∧ t.schedValid = true)

/-- R23, R24, R26, R27, R28, R36, R38: no command writes CMD, OPA, OPB, ROUND, KEY, KEYLEN, IN_LEN or IN_BUF, and none
touches IN_CAP, the host's list or what it has read. -/
def Obligations.CommandsKeepOperands : Prop :=
  ∀ (i : Instr) (s t : State), isCommand i = true → exec i s = .next t →
    t.cmd = s.cmd ∧ t.opa = s.opa ∧ t.opb = s.opb ∧ t.round = s.round ∧ t.key = s.key ∧ t.keyLen = s.keyLen ∧
    t.inLen = s.inLen ∧ t.inBuf = s.inBuf ∧ t.inCap = s.inCap ∧ t.inputs = s.inputs ∧ t.lastRead = s.lastRead ∧
    ∀ j, inBufByte t j = inBufByte s j

/-- R153 and spec/42_round_transforms.md: the primitive and block commands change no byte the host can read but those
of STATE and STATUS. -/
def Obligations.StateCommandsFrame : Prop :=
  ∀ (i : Instr) (s t : State) (a : Addr),
    i ∈ [Instr.subb, .isubb, .shr, .ishr, .mixc, .imixc, .ark, .encb, .decb] → exec i s = .next t →
    a ≠ 0x1 → ¬(0x30 ≤ a.toNat ∧ a.toNat < 0x40) → hostRead t a = hostRead s a

/-- R29, R41: CBCE and CBCD never read or write STATE, OPA, OPB, RES or ROUND: from two states that differ only there,
they end in states that differ only there. -/
def Obligations.CbcIgnoresBlockRegisters : Prop :=
  ∀ (i : Instr) (s t : State) (b : Block) (x y z w : Byte), i ∈ [Instr.cbce, .cbcd] → exec i s = .next t →
    exec i { s with state := b, opa := x, opb := y, res := z, round := w } =
      .next { t with state := b, opa := x, opb := y, res := z, round := w } ∧
    t.state = s.state ∧ t.opa = s.opa ∧ t.opb = s.opb ∧ t.res = s.res ∧ t.round = s.round

/-- R202: a command other than the CBC commands that ends with an error has changed nothing but ERR. -/
def Obligations.FailingCommandChangesOnlyErr : Prop :=
  ∀ (i : Instr) (s t : State), isCommand i = true → runsCbc i = false → exec i s = .next t → t.err ≠ .ok →
    t = { s with err := t.err }

/-- R203: the result code of every command, by the order of its checks. -/
def Obligations.ErrorPrecedence : Prop :=
  (∀ (i : Instr) (s t : State), i ∈ [Instr.gfmul, .subb, .isubb, .shr, .ishr, .mixc, .imixc] → exec i s = .next t →
    t.err = .ok) ∧
  (∀ s t : State, exec .keyexp s = .next t → t.err = if s.keyLen ≠ 0x10 then .invalidKeyLength else .ok) ∧
  (∀ s t : State, exec .ark s = .next t →
    t.err = if s.schedValid = false then .noSchedule else if 10 < s.round.toNat then .badOperand else .ok) ∧
  (∀ (i : Instr) (s t : State), i ∈ [Instr.encb, .decb] → exec i s = .next t →
    t.err = if s.schedValid = false then .noSchedule else .ok) ∧
  (∀ s t : State, exec .cbce s = .next t → t.cbcst ≠ .chaining →
    t.err = if inCapBytes s.inCap < s.inLen.toNat then .lengthRange
      else if s.keyLen ≠ 0x10 then .invalidKeyLength else .ok) ∧
  (∀ s t : State, exec .cbcd s = .next t →
    t.err = if inCapBytes s.inCap < s.inLen.toNat then .lengthRange
      else if s.keyLen ≠ 0x10 then .invalidKeyLength
      else if s.inLen.toNat < 32 ∨ (s.inLen.toNat - 16) % 16 ≠ 0 then .malformedCiphertext
      else if paddingValid (cbcdRecovered s) = false then .paddingInvalid else .ok) ∧
  (∀ (s t : State) (v : Byte), decodeCommand v = .error (.illegalCommand v) → exec (.wr cmdAddr v) s = .next t →
    t.err = .illegalCommand)

/-- R236: a write to any KEY byte or to KEYLEN clears SCHED_VALID and leaves RK as it was; without SCHED_VALID, ARK, ENCB
and DECB answer NO_SCHEDULE with nothing else changed, and whatever sets SCHED_VALID again has expanded the key. -/
def Obligations.KeyChangeMakesScheduleStale : Prop :=
  (∀ (s t : State) (a : Addr) (v : Byte), (a.toNat = 0xC ∨ (0x20 ≤ a.toNat ∧ a.toNat < 0x30)) →
    exec (.wr a v) s = .next t → t.schedValid = false ∧ t.rk = s.rk) ∧
  (∀ (i : Instr) (s : State), i ∈ [Instr.ark, .encb, .decb] → s.schedValid = false →
    exec i s = .next { s with err := .noSchedule }) ∧
  (∀ (i : Instr) (s t : State), s.schedValid = false → exec i s = .next t → t.schedValid = true →
    t.rk = expand t.key)

/-- R162: only CBCE issues an RNG request, at most one per command, and only after its prechecks pass. -/
def Obligations.RngRequestsOnlyByCbce : Prop :=
  ∀ (i : Instr) (s t : State), exec i s = .next t →
    (t.rngRequests = s.rngRequests ∧ t.rngScript = s.rngScript ∧ t.rngPolls = s.rngPolls) ∨
    (t.rngRequests = s.rngRequests + 1 ∧ i ∈ [Instr.cbce, .wr cmdAddr 0x40] ∧
      s.inLen.toNat ≤ inCapBytes s.inCap ∧ s.keyLen = 0x10)

/-! ### Steps, reset, encoding -/

/-- R190, R89, R213: with no request outstanding, a step performs the host's first word when it spells a transaction,
refuses it when it does not, and without any input leaves the state as it is. -/
def Obligations.StepPerformsTransaction : Prop :=
  ∀ s : State, s.rngPending = false →
    (∀ w rest i, s.inputs = .word w :: rest → decodeTransaction w = .ok i → step s = exec i { s with inputs := rest }) ∧
    (∀ w rest e, s.inputs = .word w :: rest → decodeTransaction w = .error e →
      step s = .refused (.notATransaction w)) ∧
    (s.inputs = [] → step s = .next s)

/-- R43: every register after reset, read through the host port where it has an address; RAM contents are the free
draws of reset 0, behind the closed gate of OUT_LEN = 0; the ROM windows hold their constants. -/
def Obligations.ResetValues : Prop :=
  State.reset.cmd = 0 ∧ State.reset.err = .ok ∧ State.reset.cbcst = .idle ∧ State.reset.schedValid = false ∧
  State.reset.opa = 0 ∧ State.reset.opb = 0 ∧ State.reset.res = 0 ∧ State.reset.round = 0 ∧ State.reset.keyLen = 0 ∧
  (∀ k, k < 16 → blockByte State.reset.key k = 0 ∧ blockByte State.reset.state k = 0) ∧
  (∀ r k, r < 11 → k < 16 → blockByte (roundKey State.reset.rk r) k = 0) ∧
  State.reset.inLen = 0 ∧ State.reset.outLen = 0 ∧
  (∀ j, inBufByte State.reset j = Config.inBufReset 0 j) ∧ (∀ j, outBufByte State.reset j = 0) ∧
  State.reset.rngPending = false ∧
  (∀ x : Byte, hostRead State.reset (0x200 + x.setWidth 32) = some (sbox x) ∧
    hostRead State.reset (0x300 + x.setWidth 32) = some (invSbox x)) ∧
  (∀ i, i < 10 → hostRead State.reset (hostAddr 0x400 i) = some (rcon i))

/-- R230: a reset between transactions sets every register to its reset value and gives the RAMs new draws; IN_CAP, the
rest of the host's list, the RNG port and what the host has read stay. -/
def Obligations.ResetEvent : Prop :=
  ∀ (s : State) (rest : List HostInput), s.rngPending = false → s.inputs = .reset :: rest →
    ∃ t, step s = .next t ∧
      t = { State.reset with inCap := s.inCap, inputs := rest, lastRead := s.lastRead, rngScript := s.rngScript,
                             rngPolls := s.rngPolls, epoch := s.epoch + 1 } ∧
      (∀ j, inBufByte t j = Config.inBufReset (s.epoch + 1) j) ∧ (∀ j, outBufByte t j = 0) ∧
      (∀ i ∈ [Instr.ark, .encb, .decb], exec i t = .next { t with err := .noSchedule }) ∧
      exec .keyexp t = .next { t with err := .invalidKeyLength }

/-- The invariant holds at reset. -/
def Obligations.ResetMeetsInv : Prop := Inv State.reset

/-- R35 and the invariants of R32, R38, R39, R57: every step keeps the invariant. -/
def Obligations.StepKeepsInv : Prop := ∀ s t : State, Inv s → step s = .next t → Inv t

/-- R6: IN_CAP is a parameter of the block: no step changes it, every value it has is legal, and every legal value is
one it can have. -/
def Obligations.CapacityIsLegalAndFixed : Prop :=
  (∀ s t : State, step s = .next t → t.inCap = s.inCap) ∧
  (∀ cap : InCap, capacityLegal (inCapBytes cap) = true ∧ outCapBytes cap = inCapBytes cap + 32) ∧
  (∀ n, capacityLegal n = true → ∃ cap : InCap, inCapBytes cap = n)

/-- Decoding the encoding of every instruction gives it back, with every address and every data byte. -/
def Obligations.DecodeEncode : Prop := ∀ i : Instr, decode (encode i) = .ok i

/-- Every code that decodes is the encoding of what it decodes to: no instruction has a second spelling. -/
def Obligations.EncodeDecode : Prop := ∀ (c : Code) (i : Instr), decode c = .ok i → encode i = c

/-- R89: a 48-bit word is refused exactly when one of bits [47:41] is set or W = 0 and DATA is not 0; every other word
is exactly one RD or WR. -/
def Obligations.WordsThatSpellNoTransaction : Prop :=
  ∀ w : TransactionWord,
    ((∃ e, decodeTransaction w = .error e) ↔
      (2 ^ 41 ≤ w.toNat ∨ (w.getLsbD 40 = false ∧ w.toNat % 256 ≠ 0))) ∧
    (w.toNat < 2 ^ 41 → w.getLsbD 40 = true →
      decodeTransaction w = .ok (.wr (w.extractLsb' 8 32) (w.extractLsb' 0 8))) ∧
    (w.toNat < 2 ^ 41 → w.getLsbD 40 = false → w.toNat % 256 = 0 →
      decodeTransaction w = .ok (.rd (w.extractLsb' 8 32)))

/-- R82, R83: the legal command bytes are exactly the thirteen of R82, and each is the command of its row. -/
def Obligations.ThirteenCommandBytes : Prop :=
  (∀ v : Byte, (∃ i, decodeCommand v = .ok i) ↔
    v ∈ [0x02#8, 0x10#8, 0x20#8, 0x21#8, 0x22#8, 0x23#8, 0x24#8, 0x25#8, 0x26#8, 0x30#8, 0x31#8, 0x40#8, 0x41#8]) ∧
  decodeCommand 0x02 = .ok .gfmul ∧ decodeCommand 0x10 = .ok .keyexp ∧ decodeCommand 0x20 = .ok .subb ∧
  decodeCommand 0x21 = .ok .isubb ∧ decodeCommand 0x22 = .ok .shr ∧ decodeCommand 0x23 = .ok .ishr ∧
  decodeCommand 0x24 = .ok .mixc ∧ decodeCommand 0x25 = .ok .imixc ∧ decodeCommand 0x26 = .ok .ark ∧
  decodeCommand 0x30 = .ok .encb ∧ decodeCommand 0x31 = .ok .decb ∧ decodeCommand 0x40 = .ok .cbce ∧
  decodeCommand 0x41 = .ok .cbcd

/-- Words written out from R82 and R88, one of every unit and both transactions, decode to what they stand for. -/
def Obligations.SampleWordsDecode : Prop :=
  decodeCommand 0b00000010 = .ok .gfmul ∧ decodeCommand 0b00010000 = .ok .keyexp ∧
  decodeCommand 0b00100001 = .ok .isubb ∧ decodeCommand 0b00100110 = .ok .ark ∧
  decodeCommand 0b00110001 = .ok .decb ∧ decodeCommand 0b01000000 = .ok .cbce ∧
  decodeTransaction 0x000000000100 = .ok (.rd 0x00000001) ∧
  decodeTransaction 0x01000000202b = .ok (.wr 0x00000020 0x2B)

/-- R190, R240: a host program of n transactions without a CBCE ends within n steps, normally with its whole list
performed, or with a BUS_ERROR. -/
def Obligations.ProgramWithoutCbceEnds : Prop :=
  ∀ (s : State) (ws : List TransactionWord), s.rngPending = false → s.inputs = ws.map .word →
    (∀ w ∈ ws, wordWellFormed w = true ∧ w ≠ commandWord 0x40) →
    (∃ t, Host.Core.run Sys2Proof.core ws.length s = .next t ∧ programDone t = true) ∨
    (∃ a, Host.Core.run Sys2Proof.core ws.length s = .fault (.busError a))

/-- R91, R233: the 18 transactions of LDKEY h and CMD KEYEXP, from any state with no request outstanding, leave KEY = h,
KEYLEN = 16, RK = expand(h), SCHED_VALID = 1 and ERR = OK, and everything else as it was. -/
def Obligations.LoadKeyProgram : Prop :=
  ∀ (s : State) (h : Block), s.rngPending = false →
    Host.Core.run Sys2Proof.core 18 (s.withProgram [.pseudo (.ldkey h), .pseudo (.cmd .keyexp)]) =
      .next { s with key := h, keyLen := 0x10, rk := expand h, schedValid := true, err := .ok, cmd := 0x10,
                     inputs := [] }

/-- The source's block vector and the FIPS-197 round keys of R121 and R150, and the SP 800-38A block of R164's
example. -/
def Obligations.PublishedVectors : Prop :=
  let k := blockOfBytes [0x2b, 0x7e, 0x15, 0x16, 0x28, 0xae, 0xd2, 0xa6, 0xab, 0xf7, 0x15, 0x88, 0x09, 0xcf, 0x4f, 0x3c]
  let p := blockOfBytes [0x32, 0x43, 0xf6, 0xa8, 0x88, 0x5a, 0x30, 0x8d, 0x31, 0x31, 0x98, 0xa2, 0xe0, 0x37, 0x07, 0x34]
  let c := blockOfBytes [0x39, 0x25, 0x84, 0x1d, 0x02, 0xdc, 0x09, 0xfb, 0xdc, 0x11, 0x85, 0x97, 0x19, 0x6a, 0x0b, 0x32]
  let m := blockOfBytes [0x6b, 0xc1, 0xbe, 0xe2, 0x2e, 0x40, 0x9f, 0x96, 0xe9, 0x3d, 0x7e, 0x11, 0x73, 0x93, 0x17, 0x2a]
  let iv := blockOfBytes [0x00, 0x01, 0x02, 0x03, 0x04, 0x05, 0x06, 0x07, 0x08, 0x09, 0x0a, 0x0b, 0x0c, 0x0d, 0x0e, 0x0f]
  let c0 := blockOfBytes [0x76, 0x49, 0xab, 0xac, 0x81, 0x19, 0xb2, 0x46, 0xce, 0xe9, 0x8e, 0x9b, 0x12, 0xe9, 0x19, 0x7d]
  blockBytes (roundKey (expand k) 10) =
    [0xd0, 0x14, 0xf9, 0xa8, 0xc9, 0xee, 0x25, 0x89, 0xe1, 0x3f, 0x0c, 0xc8, 0xb6, 0x63, 0x0c, 0xa6] ∧
  encryptBlock p (expand k) = c ∧ decryptBlock c (expand k) = p ∧
  cbcEncrypt (expand k) iv [m] = [c0]
end

