-- ==== Sys2Proof/Laws/Blocks.lean ====
section
/-! SUPPORT. The flat-byte view of blocks and the byte sequences of blocks. -/

namespace Sys2Proof.Machine

theorem Nat.forall_lt_sixteen {p : Nat → Prop} (h : ∀ k : Fin 16, p k) {k : Nat} (hk : k < 16) : p k := h ⟨k, hk⟩

/-- Flat byte `k` of the block made of `f` is `f k`. -/
@[simp] theorem blockByte_blockOf (f : Nat → Byte) {k : Nat} (hk : k < 16) : blockByte (blockOf f) k = f k := by
  revert k
  intro k hk
  interval_cases k <;> rfl

/-- A block is the block of its flat bytes. -/
theorem blockOf_blockByte (s : Block) : blockOf (blockByte s) = s := rfl

theorem blockOf_congr {f g : Nat → Byte} (h : ∀ k < 16, f k = g k) : blockOf f = blockOf g := by
  simp [blockOf, columnOf, h]

/-- Two blocks with the same 16 flat bytes are equal. -/
theorem block_ext {s t : Block} (h : ∀ k < 16, blockByte s k = blockByte t k) : s = t := by
  rw [← blockOf_blockByte s, ← blockOf_blockByte t]
  exact blockOf_congr h

@[simp] theorem blockByte_setBlockByte (s : Block) (i : Nat) (v : Byte) {k : Nat} (hk : k < 16) :
    blockByte (setBlockByte s i v) k = if k = i then v else blockByte s k := by
  simp [setBlockByte, hk]

@[simp] theorem blockByte_xorBlock (a b : Block) {k : Nat} (hk : k < 16) :
    blockByte (xorBlock a b) k = blockByte a k ^^^ blockByte b k := by
  simp [xorBlock, hk]

/-- Exclusive-or with the same block twice is the identity. -/
theorem xorBlock_self_right (a b : Block) : xorBlock (xorBlock a b) b = a := by
  refine block_ext fun k hk => ?_
  simp [hk]

theorem xorBlock_comm (a b : Block) : xorBlock a b = xorBlock b a := by
  refine block_ext fun k hk => ?_
  simp [hk, BitVec.xor_comm]

@[simp] theorem blockBytes_length (s : Block) : (blockBytes s).length = 16 := rfl

theorem blockBytes_getElem (s : Block) {k : Nat} (hk : k < 16) : (blockBytes s)[k]? = some (blockByte s k) := by
  simp [blockBytes, hk]

@[simp] theorem blockOfBytes_blockBytes (s : Block) : blockOfBytes (blockBytes s) = s := rfl

@[simp] theorem bytesOfBlocks_nil : bytesOfBlocks [] = [] := rfl

@[simp] theorem bytesOfBlocks_cons (b : Block) (bs : List Block) :
    bytesOfBlocks (b :: bs) = blockBytes b ++ bytesOfBlocks bs := rfl

@[simp] theorem bytesOfBlocks_length (bs : List Block) : (bytesOfBlocks bs).length = 16 * bs.length := by
  induction bs with
  | nil => rfl
  | cons b bs ih => simp [ih]; omega

@[simp] theorem blocksOfBytes_length (n : Nat) (l : List Byte) : (blocksOfBytes n l).length = n := by
  induction n generalizing l with
  | zero => rfl
  | succ n ih => simp [blocksOfBytes, ih]

/-- Cutting the bytes of blocks into blocks gives the blocks back. -/
theorem blocksOfBytes_bytesOfBlocks (bs : List Block) : blocksOfBytes bs.length (bytesOfBlocks bs) = bs := by
  induction bs with
  | nil => rfl
  | cons b bs ih =>
    simp only [List.length_cons, bytesOfBlocks_cons, blocksOfBytes]
    rw [List.drop_append_of_le_length (by simp), List.drop_of_length_le (by simp), List.nil_append, ih]
    congr 1

/-- Byte `k` of block `i` of a sequence of bytes. -/
theorem blocksOfBytes_getElem (n : Nat) (l : List Byte) {i : Nat} (hi : i < n) :
    (blocksOfBytes n l)[i]? = some (blockOf fun k => l.getD (16 * i + k) 0x00#8) := by
  induction n generalizing l i with
  | zero => omega
  | succ n ih =>
    cases i with
    | zero => simp [blocksOfBytes, blockOfBytes]
    | succ i =>
      simp only [blocksOfBytes, List.getElem?_cons_succ]
      rw [ih (l.drop 16) (by omega)]
      congr 2
      funext k
      simp [Nat.mul_add, Nat.add_comm, Nat.add_left_comm]

/-- Byte `16 i + k` of a sequence of blocks. -/
theorem bytesOfBlocks_getElem (bs : List Block) {i k : Nat} (hi : i < bs.length) (hk : k < 16) :
    (bytesOfBlocks bs)[16 * i + k]? = some (blockByte bs[i] k) := by
  induction bs generalizing i with
  | nil => simp at hi
  | cons b bs ih =>
    cases i with
    | zero =>
      rw [bytesOfBlocks_cons, List.getElem?_append_left (by simpa using hk)]
      simpa using blockBytes_getElem b hk
    | succ i =>
      rw [bytesOfBlocks_cons, List.getElem?_append_right (by simp; omega)]
      simp only [blockBytes_length, List.getElem_cons_succ]
      rw [show 16 * (i + 1) + k - 16 = 16 * i + k by omega]
      exact ih (by simpa using hi)

/-- A 32-bit counter's bytes after one of them is written (spec/20_memory.md R54). -/
theorem countByte_setCountByte (c : Count) (v : Byte) {i j : Nat} (hi : i < 4) (hj : j < 4) :
    countByte (setCountByte c j v) i = if i = j then v else countByte c i := by
  have key : ∀ i : Fin 4, ∀ j : Fin 4, countByte (setCountByte c j v) i = if i = j then v else countByte c i := by
    intro i j
    fin_cases i <;> fin_cases j <;>
      (refine BitVec.eq_of_getLsbD_eq fun b hb => ?_
       interval_cases b <;> simp [countByte, setCountByte])
  simpa [Fin.ext_iff] using key ⟨i, hi⟩ ⟨j, hj⟩

end Sys2Proof.Machine
end

