-- ==== Sys2Proof/Laws/State.lean ====
section
/-! SUPPORT. One lemma per field per named update of State, each tagged simp, so that no later proof
unfolds a record update. -/

namespace Sys2Proof.Machine

section setErr
variable (e : ErrCode) (s : State)
@[simp] theorem setErr_cmd : (setErr e s).cmd = s.cmd := rfl
@[simp] theorem setErr_err : (setErr e s).err = e := rfl
@[simp] theorem setErr_cbcst : (setErr e s).cbcst = s.cbcst := rfl
@[simp] theorem setErr_schedValid : (setErr e s).schedValid = s.schedValid := rfl
@[simp] theorem setErr_opa : (setErr e s).opa = s.opa := rfl
@[simp] theorem setErr_opb : (setErr e s).opb = s.opb := rfl
@[simp] theorem setErr_res : (setErr e s).res = s.res := rfl
@[simp] theorem setErr_round : (setErr e s).round = s.round := rfl
@[simp] theorem setErr_key : (setErr e s).key = s.key := rfl
@[simp] theorem setErr_keyLen : (setErr e s).keyLen = s.keyLen := rfl
@[simp] theorem setErr_state : (setErr e s).state = s.state := rfl
@[simp] theorem setErr_rk : (setErr e s).rk = s.rk := rfl
@[simp] theorem setErr_inLen : (setErr e s).inLen = s.inLen := rfl
@[simp] theorem setErr_outLen : (setErr e s).outLen = s.outLen := rfl
@[simp] theorem setErr_inBuf : (setErr e s).inBuf = s.inBuf := rfl
@[simp] theorem setErr_outBuf : (setErr e s).outBuf = s.outBuf := rfl
@[simp] theorem setErr_rngPending : (setErr e s).rngPending = s.rngPending := rfl
@[simp] theorem setErr_inCap : (setErr e s).inCap = s.inCap := rfl
@[simp] theorem setErr_inputs : (setErr e s).inputs = s.inputs := rfl
@[simp] theorem setErr_lastRead : (setErr e s).lastRead = s.lastRead := rfl
@[simp] theorem setErr_rngScript : (setErr e s).rngScript = s.rngScript := rfl
@[simp] theorem setErr_rngPolls : (setErr e s).rngPolls = s.rngPolls := rfl
@[simp] theorem setErr_rngRequests : (setErr e s).rngRequests = s.rngRequests := rfl
@[simp] theorem setErr_epoch : (setErr e s).epoch = s.epoch := rfl
end setErr

section failCommand
variable (e : ErrCode) (s : State)
@[simp] theorem failCommand_cmd : (failCommand e s).cmd = s.cmd := rfl
@[simp] theorem failCommand_err : (failCommand e s).err = e := rfl
@[simp] theorem failCommand_cbcst : (failCommand e s).cbcst = s.cbcst := rfl
@[simp] theorem failCommand_schedValid : (failCommand e s).schedValid = s.schedValid := rfl
@[simp] theorem failCommand_opa : (failCommand e s).opa = s.opa := rfl
@[simp] theorem failCommand_opb : (failCommand e s).opb = s.opb := rfl
@[simp] theorem failCommand_res : (failCommand e s).res = s.res := rfl
@[simp] theorem failCommand_round : (failCommand e s).round = s.round := rfl
@[simp] theorem failCommand_key : (failCommand e s).key = s.key := rfl
@[simp] theorem failCommand_keyLen : (failCommand e s).keyLen = s.keyLen := rfl
@[simp] theorem failCommand_state : (failCommand e s).state = s.state := rfl
@[simp] theorem failCommand_rk : (failCommand e s).rk = s.rk := rfl
@[simp] theorem failCommand_inLen : (failCommand e s).inLen = s.inLen := rfl
@[simp] theorem failCommand_outLen : (failCommand e s).outLen = s.outLen := rfl
@[simp] theorem failCommand_inBuf : (failCommand e s).inBuf = s.inBuf := rfl
@[simp] theorem failCommand_outBuf : (failCommand e s).outBuf = s.outBuf := rfl
@[simp] theorem failCommand_rngPending : (failCommand e s).rngPending = s.rngPending := rfl
@[simp] theorem failCommand_inCap : (failCommand e s).inCap = s.inCap := rfl
@[simp] theorem failCommand_inputs : (failCommand e s).inputs = s.inputs := rfl
@[simp] theorem failCommand_lastRead : (failCommand e s).lastRead = s.lastRead := rfl
@[simp] theorem failCommand_rngScript : (failCommand e s).rngScript = s.rngScript := rfl
@[simp] theorem failCommand_rngPolls : (failCommand e s).rngPolls = s.rngPolls := rfl
@[simp] theorem failCommand_rngRequests : (failCommand e s).rngRequests = s.rngRequests := rfl
@[simp] theorem failCommand_epoch : (failCommand e s).epoch = s.epoch := rfl
end failCommand

section failCbc
variable (e : ErrCode) (st : CbcState) (s : State)
@[simp] theorem failCbc_cmd : (failCbc e st s).cmd = s.cmd := rfl
@[simp] theorem failCbc_err : (failCbc e st s).err = e := rfl
@[simp] theorem failCbc_cbcst : (failCbc e st s).cbcst = st := rfl
@[simp] theorem failCbc_schedValid : (failCbc e st s).schedValid = s.schedValid := rfl
@[simp] theorem failCbc_opa : (failCbc e st s).opa = s.opa := rfl
@[simp] theorem failCbc_opb : (failCbc e st s).opb = s.opb := rfl
@[simp] theorem failCbc_res : (failCbc e st s).res = s.res := rfl
@[simp] theorem failCbc_round : (failCbc e st s).round = s.round := rfl
@[simp] theorem failCbc_key : (failCbc e st s).key = s.key := rfl
@[simp] theorem failCbc_keyLen : (failCbc e st s).keyLen = s.keyLen := rfl
@[simp] theorem failCbc_state : (failCbc e st s).state = s.state := rfl
@[simp] theorem failCbc_rk : (failCbc e st s).rk = s.rk := rfl
@[simp] theorem failCbc_inLen : (failCbc e st s).inLen = s.inLen := rfl
@[simp] theorem failCbc_outLen : (failCbc e st s).outLen = 0x00000000#32 := rfl
@[simp] theorem failCbc_inBuf : (failCbc e st s).inBuf = s.inBuf := rfl
@[simp] theorem failCbc_outBuf : (failCbc e st s).outBuf = s.outBuf := rfl
@[simp] theorem failCbc_rngPending : (failCbc e st s).rngPending = s.rngPending := rfl
@[simp] theorem failCbc_inCap : (failCbc e st s).inCap = s.inCap := rfl
@[simp] theorem failCbc_inputs : (failCbc e st s).inputs = s.inputs := rfl
@[simp] theorem failCbc_lastRead : (failCbc e st s).lastRead = s.lastRead := rfl
@[simp] theorem failCbc_rngScript : (failCbc e st s).rngScript = s.rngScript := rfl
@[simp] theorem failCbc_rngPolls : (failCbc e st s).rngPolls = s.rngPolls := rfl
@[simp] theorem failCbc_rngRequests : (failCbc e st s).rngRequests = s.rngRequests := rfl
@[simp] theorem failCbc_epoch : (failCbc e st s).epoch = s.epoch := rfl
end failCbc

section finishState
variable (r : Block) (s : State)
@[simp] theorem finishState_cmd : (finishState r s).cmd = s.cmd := rfl
@[simp] theorem finishState_err : (finishState r s).err = .ok := rfl
@[simp] theorem finishState_cbcst : (finishState r s).cbcst = s.cbcst := rfl
@[simp] theorem finishState_schedValid : (finishState r s).schedValid = s.schedValid := rfl
@[simp] theorem finishState_opa : (finishState r s).opa = s.opa := rfl
@[simp] theorem finishState_opb : (finishState r s).opb = s.opb := rfl
@[simp] theorem finishState_res : (finishState r s).res = s.res := rfl
@[simp] theorem finishState_round : (finishState r s).round = s.round := rfl
@[simp] theorem finishState_key : (finishState r s).key = s.key := rfl
@[simp] theorem finishState_keyLen : (finishState r s).keyLen = s.keyLen := rfl
@[simp] theorem finishState_state : (finishState r s).state = r := rfl
@[simp] theorem finishState_rk : (finishState r s).rk = s.rk := rfl
@[simp] theorem finishState_inLen : (finishState r s).inLen = s.inLen := rfl
@[simp] theorem finishState_outLen : (finishState r s).outLen = s.outLen := rfl
@[simp] theorem finishState_inBuf : (finishState r s).inBuf = s.inBuf := rfl
@[simp] theorem finishState_outBuf : (finishState r s).outBuf = s.outBuf := rfl
@[simp] theorem finishState_rngPending : (finishState r s).rngPending = s.rngPending := rfl
@[simp] theorem finishState_inCap : (finishState r s).inCap = s.inCap := rfl
@[simp] theorem finishState_inputs : (finishState r s).inputs = s.inputs := rfl
@[simp] theorem finishState_lastRead : (finishState r s).lastRead = s.lastRead := rfl
@[simp] theorem finishState_rngScript : (finishState r s).rngScript = s.rngScript := rfl
@[simp] theorem finishState_rngPolls : (finishState r s).rngPolls = s.rngPolls := rfl
@[simp] theorem finishState_rngRequests : (finishState r s).rngRequests = s.rngRequests := rfl
@[simp] theorem finishState_epoch : (finishState r s).epoch = s.epoch := rfl
end finishState

section installSchedule
variable (k : Schedule) (s : State)
@[simp] theorem installSchedule_cmd : (installSchedule k s).cmd = s.cmd := rfl
@[simp] theorem installSchedule_err : (installSchedule k s).err = s.err := rfl
@[simp] theorem installSchedule_cbcst : (installSchedule k s).cbcst = s.cbcst := rfl
@[simp] theorem installSchedule_schedValid : (installSchedule k s).schedValid = true := rfl
@[simp] theorem installSchedule_opa : (installSchedule k s).opa = s.opa := rfl
@[simp] theorem installSchedule_opb : (installSchedule k s).opb = s.opb := rfl
@[simp] theorem installSchedule_res : (installSchedule k s).res = s.res := rfl
@[simp] theorem installSchedule_round : (installSchedule k s).round = s.round := rfl
@[simp] theorem installSchedule_key : (installSchedule k s).key = s.key := rfl
@[simp] theorem installSchedule_keyLen : (installSchedule k s).keyLen = s.keyLen := rfl
@[simp] theorem installSchedule_state : (installSchedule k s).state = s.state := rfl
@[simp] theorem installSchedule_rk : (installSchedule k s).rk = k := rfl
@[simp] theorem installSchedule_inLen : (installSchedule k s).inLen = s.inLen := rfl
@[simp] theorem installSchedule_outLen : (installSchedule k s).outLen = s.outLen := rfl
@[simp] theorem installSchedule_inBuf : (installSchedule k s).inBuf = s.inBuf := rfl
@[simp] theorem installSchedule_outBuf : (installSchedule k s).outBuf = s.outBuf := rfl
@[simp] theorem installSchedule_rngPending : (installSchedule k s).rngPending = s.rngPending := rfl
@[simp] theorem installSchedule_inCap : (installSchedule k s).inCap = s.inCap := rfl
@[simp] theorem installSchedule_inputs : (installSchedule k s).inputs = s.inputs := rfl
@[simp] theorem installSchedule_lastRead : (installSchedule k s).lastRead = s.lastRead := rfl
@[simp] theorem installSchedule_rngScript : (installSchedule k s).rngScript = s.rngScript := rfl
@[simp] theorem installSchedule_rngPolls : (installSchedule k s).rngPolls = s.rngPolls := rfl
@[simp] theorem installSchedule_rngRequests : (installSchedule k s).rngRequests = s.rngRequests := rfl
@[simp] theorem installSchedule_epoch : (installSchedule k s).epoch = s.epoch := rfl
end installSchedule

section clearSchedule
variable (s : State)
@[simp] theorem clearSchedule_cmd : (clearSchedule s).cmd = s.cmd := rfl
@[simp] theorem clearSchedule_err : (clearSchedule s).err = s.err := rfl
@[simp] theorem clearSchedule_cbcst : (clearSchedule s).cbcst = s.cbcst := rfl
@[simp] theorem clearSchedule_schedValid : (clearSchedule s).schedValid = false := rfl
@[simp] theorem clearSchedule_opa : (clearSchedule s).opa = s.opa := rfl
@[simp] theorem clearSchedule_opb : (clearSchedule s).opb = s.opb := rfl
@[simp] theorem clearSchedule_res : (clearSchedule s).res = s.res := rfl
@[simp] theorem clearSchedule_round : (clearSchedule s).round = s.round := rfl
@[simp] theorem clearSchedule_key : (clearSchedule s).key = s.key := rfl
@[simp] theorem clearSchedule_keyLen : (clearSchedule s).keyLen = s.keyLen := rfl
@[simp] theorem clearSchedule_state : (clearSchedule s).state = s.state := rfl
@[simp] theorem clearSchedule_rk : (clearSchedule s).rk = s.rk := rfl
@[simp] theorem clearSchedule_inLen : (clearSchedule s).inLen = s.inLen := rfl
@[simp] theorem clearSchedule_outLen : (clearSchedule s).outLen = s.outLen := rfl
@[simp] theorem clearSchedule_inBuf : (clearSchedule s).inBuf = s.inBuf := rfl
@[simp] theorem clearSchedule_outBuf : (clearSchedule s).outBuf = s.outBuf := rfl
@[simp] theorem clearSchedule_rngPending : (clearSchedule s).rngPending = s.rngPending := rfl
@[simp] theorem clearSchedule_inCap : (clearSchedule s).inCap = s.inCap := rfl
@[simp] theorem clearSchedule_inputs : (clearSchedule s).inputs = s.inputs := rfl
@[simp] theorem clearSchedule_lastRead : (clearSchedule s).lastRead = s.lastRead := rfl
@[simp] theorem clearSchedule_rngScript : (clearSchedule s).rngScript = s.rngScript := rfl
@[simp] theorem clearSchedule_rngPolls : (clearSchedule s).rngPolls = s.rngPolls := rfl
@[simp] theorem clearSchedule_rngRequests : (clearSchedule s).rngRequests = s.rngRequests := rfl
@[simp] theorem clearSchedule_epoch : (clearSchedule s).epoch = s.epoch := rfl
end clearSchedule

section outBufWrite
variable (a : Nat) (l : List Byte) (s : State)
@[simp] theorem outBufWrite_cmd : (outBufWrite a l s).cmd = s.cmd := rfl
@[simp] theorem outBufWrite_err : (outBufWrite a l s).err = s.err := rfl
@[simp] theorem outBufWrite_cbcst : (outBufWrite a l s).cbcst = s.cbcst := rfl
@[simp] theorem outBufWrite_schedValid : (outBufWrite a l s).schedValid = s.schedValid := rfl
@[simp] theorem outBufWrite_opa : (outBufWrite a l s).opa = s.opa := rfl
@[simp] theorem outBufWrite_opb : (outBufWrite a l s).opb = s.opb := rfl
@[simp] theorem outBufWrite_res : (outBufWrite a l s).res = s.res := rfl
@[simp] theorem outBufWrite_round : (outBufWrite a l s).round = s.round := rfl
@[simp] theorem outBufWrite_key : (outBufWrite a l s).key = s.key := rfl
@[simp] theorem outBufWrite_keyLen : (outBufWrite a l s).keyLen = s.keyLen := rfl
@[simp] theorem outBufWrite_state : (outBufWrite a l s).state = s.state := rfl
@[simp] theorem outBufWrite_rk : (outBufWrite a l s).rk = s.rk := rfl
@[simp] theorem outBufWrite_inLen : (outBufWrite a l s).inLen = s.inLen := rfl
@[simp] theorem outBufWrite_outLen : (outBufWrite a l s).outLen = s.outLen := rfl
@[simp] theorem outBufWrite_inBuf : (outBufWrite a l s).inBuf = s.inBuf := rfl
@[simp] theorem outBufWrite_outBuf : (outBufWrite a l s).outBuf = Memory.writeBytes s.outBuf a l := rfl
@[simp] theorem outBufWrite_rngPending : (outBufWrite a l s).rngPending = s.rngPending := rfl
@[simp] theorem outBufWrite_inCap : (outBufWrite a l s).inCap = s.inCap := rfl
@[simp] theorem outBufWrite_inputs : (outBufWrite a l s).inputs = s.inputs := rfl
@[simp] theorem outBufWrite_lastRead : (outBufWrite a l s).lastRead = s.lastRead := rfl
@[simp] theorem outBufWrite_rngScript : (outBufWrite a l s).rngScript = s.rngScript := rfl
@[simp] theorem outBufWrite_rngPolls : (outBufWrite a l s).rngPolls = s.rngPolls := rfl
@[simp] theorem outBufWrite_rngRequests : (outBufWrite a l s).rngRequests = s.rngRequests := rfl
@[simp] theorem outBufWrite_epoch : (outBufWrite a l s).epoch = s.epoch := rfl
end outBufWrite

section inBufWrite
variable (j : Nat) (v : Byte) (s : State)
@[simp] theorem inBufWrite_cmd : (inBufWrite j v s).cmd = s.cmd := rfl
@[simp] theorem inBufWrite_err : (inBufWrite j v s).err = s.err := rfl
@[simp] theorem inBufWrite_cbcst : (inBufWrite j v s).cbcst = s.cbcst := rfl
@[simp] theorem inBufWrite_schedValid : (inBufWrite j v s).schedValid = s.schedValid := rfl
@[simp] theorem inBufWrite_opa : (inBufWrite j v s).opa = s.opa := rfl
@[simp] theorem inBufWrite_opb : (inBufWrite j v s).opb = s.opb := rfl
@[simp] theorem inBufWrite_res : (inBufWrite j v s).res = s.res := rfl
@[simp] theorem inBufWrite_round : (inBufWrite j v s).round = s.round := rfl
@[simp] theorem inBufWrite_key : (inBufWrite j v s).key = s.key := rfl
@[simp] theorem inBufWrite_keyLen : (inBufWrite j v s).keyLen = s.keyLen := rfl
@[simp] theorem inBufWrite_state : (inBufWrite j v s).state = s.state := rfl
@[simp] theorem inBufWrite_rk : (inBufWrite j v s).rk = s.rk := rfl
@[simp] theorem inBufWrite_inLen : (inBufWrite j v s).inLen = s.inLen := rfl
@[simp] theorem inBufWrite_outLen : (inBufWrite j v s).outLen = s.outLen := rfl
@[simp] theorem inBufWrite_inBuf : (inBufWrite j v s).inBuf = Memory.write s.inBuf j v := rfl
@[simp] theorem inBufWrite_outBuf : (inBufWrite j v s).outBuf = s.outBuf := rfl
@[simp] theorem inBufWrite_rngPending : (inBufWrite j v s).rngPending = s.rngPending := rfl
@[simp] theorem inBufWrite_inCap : (inBufWrite j v s).inCap = s.inCap := rfl
@[simp] theorem inBufWrite_inputs : (inBufWrite j v s).inputs = s.inputs := rfl
@[simp] theorem inBufWrite_lastRead : (inBufWrite j v s).lastRead = s.lastRead := rfl
@[simp] theorem inBufWrite_rngScript : (inBufWrite j v s).rngScript = s.rngScript := rfl
@[simp] theorem inBufWrite_rngPolls : (inBufWrite j v s).rngPolls = s.rngPolls := rfl
@[simp] theorem inBufWrite_rngRequests : (inBufWrite j v s).rngRequests = s.rngRequests := rfl
@[simp] theorem inBufWrite_epoch : (inBufWrite j v s).epoch = s.epoch := rfl
end inBufWrite

section rngRequest
variable (s : State)
@[simp] theorem rngRequest_cmd : (rngRequest s).cmd = s.cmd := rfl
@[simp] theorem rngRequest_err : (rngRequest s).err = s.err := rfl
@[simp] theorem rngRequest_cbcst : (rngRequest s).cbcst = .chaining := rfl
@[simp] theorem rngRequest_schedValid : (rngRequest s).schedValid = s.schedValid := rfl
@[simp] theorem rngRequest_opa : (rngRequest s).opa = s.opa := rfl
@[simp] theorem rngRequest_opb : (rngRequest s).opb = s.opb := rfl
@[simp] theorem rngRequest_res : (rngRequest s).res = s.res := rfl
@[simp] theorem rngRequest_round : (rngRequest s).round = s.round := rfl
@[simp] theorem rngRequest_key : (rngRequest s).key = s.key := rfl
@[simp] theorem rngRequest_keyLen : (rngRequest s).keyLen = s.keyLen := rfl
@[simp] theorem rngRequest_state : (rngRequest s).state = s.state := rfl
@[simp] theorem rngRequest_rk : (rngRequest s).rk = s.rk := rfl
@[simp] theorem rngRequest_inLen : (rngRequest s).inLen = s.inLen := rfl
@[simp] theorem rngRequest_outLen : (rngRequest s).outLen = s.outLen := rfl
@[simp] theorem rngRequest_inBuf : (rngRequest s).inBuf = s.inBuf := rfl
@[simp] theorem rngRequest_outBuf : (rngRequest s).outBuf = s.outBuf := rfl
@[simp] theorem rngRequest_rngPending : (rngRequest s).rngPending = true := rfl
@[simp] theorem rngRequest_inCap : (rngRequest s).inCap = s.inCap := rfl
@[simp] theorem rngRequest_inputs : (rngRequest s).inputs = s.inputs := rfl
@[simp] theorem rngRequest_lastRead : (rngRequest s).lastRead = s.lastRead := rfl
@[simp] theorem rngRequest_rngScript : (rngRequest s).rngScript = s.rngScript := rfl
@[simp] theorem rngRequest_rngPolls : (rngRequest s).rngPolls = s.rngPolls := rfl
@[simp] theorem rngRequest_rngRequests : (rngRequest s).rngRequests = s.rngRequests + 1 := rfl
@[simp] theorem rngRequest_epoch : (rngRequest s).epoch = s.epoch := rfl
end rngRequest

section cbceFinish
variable (iv : Block) (s : State)
@[simp] theorem cbceFinish_cmd : (cbceFinish iv s).cmd = s.cmd := rfl
@[simp] theorem cbceFinish_err : (cbceFinish iv s).err = .ok := rfl
@[simp] theorem cbceFinish_cbcst : (cbceFinish iv s).cbcst = .done := rfl
@[simp] theorem cbceFinish_schedValid : (cbceFinish iv s).schedValid = true := rfl
@[simp] theorem cbceFinish_opa : (cbceFinish iv s).opa = s.opa := rfl
@[simp] theorem cbceFinish_opb : (cbceFinish iv s).opb = s.opb := rfl
@[simp] theorem cbceFinish_res : (cbceFinish iv s).res = s.res := rfl
@[simp] theorem cbceFinish_round : (cbceFinish iv s).round = s.round := rfl
@[simp] theorem cbceFinish_key : (cbceFinish iv s).key = s.key := rfl
@[simp] theorem cbceFinish_keyLen : (cbceFinish iv s).keyLen = s.keyLen := rfl
@[simp] theorem cbceFinish_state : (cbceFinish iv s).state = s.state := rfl
@[simp] theorem cbceFinish_rk : (cbceFinish iv s).rk = expand s.key := rfl
@[simp] theorem cbceFinish_inLen : (cbceFinish iv s).inLen = s.inLen := rfl
@[simp] theorem cbceFinish_outLen : (cbceFinish iv s).outLen = BitVec.ofNat 32 (16 + 16 * (s.inLen.toNat / 16 + 1)) := rfl
@[simp] theorem cbceFinish_inBuf : (cbceFinish iv s).inBuf = s.inBuf := rfl
@[simp] theorem cbceFinish_outBuf : (cbceFinish iv s).outBuf = Memory.writeBytes s.outBuf 0 (cbceStream iv s) := by simp [cbceFinish]
@[simp] theorem cbceFinish_rngPending : (cbceFinish iv s).rngPending = false := rfl
@[simp] theorem cbceFinish_inCap : (cbceFinish iv s).inCap = s.inCap := rfl
@[simp] theorem cbceFinish_inputs : (cbceFinish iv s).inputs = s.inputs := rfl
@[simp] theorem cbceFinish_lastRead : (cbceFinish iv s).lastRead = s.lastRead := rfl
@[simp] theorem cbceFinish_rngScript : (cbceFinish iv s).rngScript = s.rngScript := rfl
@[simp] theorem cbceFinish_rngPolls : (cbceFinish iv s).rngPolls = s.rngPolls := rfl
@[simp] theorem cbceFinish_rngRequests : (cbceFinish iv s).rngRequests = s.rngRequests := rfl
@[simp] theorem cbceFinish_epoch : (cbceFinish iv s).epoch = s.epoch := rfl
end cbceFinish

section cbcdFinish
variable (p : List Byte) (s : State)
@[simp] theorem cbcdFinish_cmd : (cbcdFinish p s).cmd = s.cmd := rfl
@[simp] theorem cbcdFinish_err : (cbcdFinish p s).err = .ok := rfl
@[simp] theorem cbcdFinish_cbcst : (cbcdFinish p s).cbcst = .done := rfl
@[simp] theorem cbcdFinish_schedValid : (cbcdFinish p s).schedValid = s.schedValid := rfl
@[simp] theorem cbcdFinish_opa : (cbcdFinish p s).opa = s.opa := rfl
@[simp] theorem cbcdFinish_opb : (cbcdFinish p s).opb = s.opb := rfl
@[simp] theorem cbcdFinish_res : (cbcdFinish p s).res = s.res := rfl
@[simp] theorem cbcdFinish_round : (cbcdFinish p s).round = s.round := rfl
@[simp] theorem cbcdFinish_key : (cbcdFinish p s).key = s.key := rfl
@[simp] theorem cbcdFinish_keyLen : (cbcdFinish p s).keyLen = s.keyLen := rfl
@[simp] theorem cbcdFinish_state : (cbcdFinish p s).state = s.state := rfl
@[simp] theorem cbcdFinish_rk : (cbcdFinish p s).rk = s.rk := rfl
@[simp] theorem cbcdFinish_inLen : (cbcdFinish p s).inLen = s.inLen := rfl
@[simp] theorem cbcdFinish_outLen : (cbcdFinish p s).outLen = BitVec.ofNat 32 (p.length - (lastByte p).toNat) := rfl
@[simp] theorem cbcdFinish_inBuf : (cbcdFinish p s).inBuf = s.inBuf := rfl
@[simp] theorem cbcdFinish_outBuf : (cbcdFinish p s).outBuf = Memory.writeBytes s.outBuf 0 (unpad p) := by simp [cbcdFinish]
@[simp] theorem cbcdFinish_rngPending : (cbcdFinish p s).rngPending = s.rngPending := rfl
@[simp] theorem cbcdFinish_inCap : (cbcdFinish p s).inCap = s.inCap := rfl
@[simp] theorem cbcdFinish_inputs : (cbcdFinish p s).inputs = s.inputs := rfl
@[simp] theorem cbcdFinish_lastRead : (cbcdFinish p s).lastRead = s.lastRead := rfl
@[simp] theorem cbcdFinish_rngScript : (cbcdFinish p s).rngScript = s.rngScript := rfl
@[simp] theorem cbcdFinish_rngPolls : (cbcdFinish p s).rngPolls = s.rngPolls := rfl
@[simp] theorem cbcdFinish_rngRequests : (cbcdFinish p s).rngRequests = s.rngRequests := rfl
@[simp] theorem cbcdFinish_epoch : (cbcdFinish p s).epoch = s.epoch := rfl
end cbcdFinish

section hardReset
variable (s : State)
@[simp] theorem hardReset_cmd : (hardReset s).cmd = State.reset.cmd := rfl
@[simp] theorem hardReset_err : (hardReset s).err = State.reset.err := rfl
@[simp] theorem hardReset_cbcst : (hardReset s).cbcst = State.reset.cbcst := rfl
@[simp] theorem hardReset_schedValid : (hardReset s).schedValid = State.reset.schedValid := rfl
@[simp] theorem hardReset_opa : (hardReset s).opa = State.reset.opa := rfl
@[simp] theorem hardReset_opb : (hardReset s).opb = State.reset.opb := rfl
@[simp] theorem hardReset_res : (hardReset s).res = State.reset.res := rfl
@[simp] theorem hardReset_round : (hardReset s).round = State.reset.round := rfl
@[simp] theorem hardReset_key : (hardReset s).key = State.reset.key := rfl
@[simp] theorem hardReset_keyLen : (hardReset s).keyLen = State.reset.keyLen := rfl
@[simp] theorem hardReset_state : (hardReset s).state = State.reset.state := rfl
@[simp] theorem hardReset_rk : (hardReset s).rk = State.reset.rk := rfl
@[simp] theorem hardReset_inLen : (hardReset s).inLen = State.reset.inLen := rfl
@[simp] theorem hardReset_outLen : (hardReset s).outLen = State.reset.outLen := rfl
@[simp] theorem hardReset_inBuf : (hardReset s).inBuf = State.reset.inBuf := rfl
@[simp] theorem hardReset_outBuf : (hardReset s).outBuf = State.reset.outBuf := rfl
@[simp] theorem hardReset_rngPending : (hardReset s).rngPending = State.reset.rngPending := rfl
@[simp] theorem hardReset_inCap : (hardReset s).inCap = s.inCap := rfl
@[simp] theorem hardReset_inputs : (hardReset s).inputs = s.inputs := rfl
@[simp] theorem hardReset_lastRead : (hardReset s).lastRead = s.lastRead := rfl
@[simp] theorem hardReset_rngScript : (hardReset s).rngScript = s.rngScript := rfl
@[simp] theorem hardReset_rngPolls : (hardReset s).rngPolls = s.rngPolls := rfl
@[simp] theorem hardReset_rngRequests : (hardReset s).rngRequests = State.reset.rngRequests := rfl
@[simp] theorem hardReset_epoch : (hardReset s).epoch = s.epoch + 1 := rfl
end hardReset

end Sys2Proof.Machine
end

