-- ==== Sys2Proof/Laws/Bus.lean ====
section
/-! SUPPORT. The host bus: the rows of the address map do not overlap, so an address inside a row is located there; what
locating answers; and that a write to CMD of a legal byte runs the instruction's own meaning. -/

namespace Sys2Proof.Machine

theorem inCapBytes_bounds (cap : InCap) : 32 ≤ inCapBytes cap ∧ inCapBytes cap ≤ 0xFFFE0 := by
  have := cap.extra.isLt
  unfold inCapBytes
  omega

/-- No address lies in two rows of the map (spec/20_memory.md R51). -/
theorem addressMap_disjoint (cap : InCap) :
    (addressMap cap).Pairwise fun r q => r.base + r.size ≤ q.base := by
  have h := inCapBytes_bounds cap
  simp [addressMap, outCapBytes]
  omega

/-- An address inside a row of the map is located in that row. -/
theorem locate_of_mem {cap : InCap} {a : Addr} {r : Region} (hr : r ∈ addressMap cap)
    (hlo : r.base ≤ a.toNat) (hhi : a.toNat < r.base + r.size) : locate cap a = some r := by
  have key : ∀ l : List Region, l.Pairwise (fun r q => r.base + r.size ≤ q.base) → r ∈ l →
      l.find? (regionCovers a.toNat) = some r := by
    intro l
    induction l with
    | nil => simp
    | cons q l ih =>
      intro hl hm
      obtain ⟨hq, hl⟩ := List.pairwise_cons.mp hl
      rcases List.mem_cons.mp hm with rfl | hm
      · simp [regionCovers, hlo, hhi]
      · have hqr := hq r hm
        have hno : regionCovers a.toNat q = false := by simp [regionCovers]; omega
        rw [List.find?_cons, hno]
        exact ih hl hm
  exact key _ (addressMap_disjoint cap) hr

/-- Locating an address answers a row of the map that holds it. -/
theorem locate_eq_some {cap : InCap} {a : Addr} {r : Region} (h : locate cap a = some r) :
    r ∈ addressMap cap ∧ r.base ≤ a.toNat ∧ a.toNat < r.base + r.size := by
  refine ⟨List.mem_of_find?_eq_some h, ?_⟩
  have := List.find?_some h
  simpa [regionCovers] using this

/-- An address of no row is not located. -/
theorem locate_eq_none {cap : InCap} {a : Addr} (h : ∀ r ∈ addressMap cap, ¬(r.base ≤ a.toNat ∧ a.toNat < r.base + r.size)) :
    locate cap a = none := by
  refine List.find?_eq_none.mpr fun r hr => ?_
  simpa [regionCovers] using h r hr

theorem mem_addressMap (cap : InCap) (r : Region) : r ∈ addressMap cap ↔
    r = ⟨.cmd, 0x0, 1, true⟩ ∨ r = ⟨.status, 0x1, 1, false⟩ ∨ r = ⟨.inLen, 0x4, 4, true⟩ ∨
    r = ⟨.outLen, 0x8, 4, false⟩ ∨ r = ⟨.keyLen, 0xC, 1, true⟩ ∨ r = ⟨.round, 0xD, 1, true⟩ ∨
    r = ⟨.opa, 0xE, 1, true⟩ ∨ r = ⟨.opb, 0xF, 1, true⟩ ∨ r = ⟨.res, 0x10, 1, false⟩ ∨
    r = ⟨.key, 0x20, 16, true⟩ ∨ r = ⟨.state, 0x30, 16, true⟩ ∨ r = ⟨.rk, 0x100, 176, false⟩ ∨
    r = ⟨.sboxRom, 0x200, 256, false⟩ ∨ r = ⟨.invSboxRom, 0x300, 256, false⟩ ∨ r = ⟨.rconRom, 0x400, 10, false⟩ ∨
    r = ⟨.inBuf, 0x100000, inCapBytes cap, true⟩ ∨ r = ⟨.outBuf, 0x200000, outCapBytes cap, false⟩ := by
  simp [addressMap]

section rows
variable {cap : InCap} {a : Addr}

theorem locate_cmd (h : a.toNat = 0x0) : locate cap a = some ⟨.cmd, 0x0, 1, true⟩ :=
  locate_of_mem (by simp [addressMap]) (by simp) (by simp [h])

theorem locate_status (h : a.toNat = 0x1) : locate cap a = some ⟨.status, 0x1, 1, false⟩ :=
  locate_of_mem (by simp [addressMap]) (by simp [h]) (by simp [h])

theorem locate_inLen {j : Nat} (hj : j < 4) (h : a.toNat = 0x4 + j) : locate cap a = some ⟨.inLen, 0x4, 4, true⟩ :=
  locate_of_mem (by simp [addressMap]) (by simp; omega) (by simp; omega)

theorem locate_outLen {j : Nat} (hj : j < 4) (h : a.toNat = 0x8 + j) : locate cap a = some ⟨.outLen, 0x8, 4, false⟩ :=
  locate_of_mem (by simp [addressMap]) (by simp; omega) (by simp; omega)

theorem locate_keyLen (h : a.toNat = 0xC) : locate cap a = some ⟨.keyLen, 0xC, 1, true⟩ :=
  locate_of_mem (by simp [addressMap]) (by simp [h]) (by simp [h])

theorem locate_round (h : a.toNat = 0xD) : locate cap a = some ⟨.round, 0xD, 1, true⟩ :=
  locate_of_mem (by simp [addressMap]) (by simp [h]) (by simp [h])

theorem locate_opa (h : a.toNat = 0xE) : locate cap a = some ⟨.opa, 0xE, 1, true⟩ :=
  locate_of_mem (by simp [addressMap]) (by simp [h]) (by simp [h])

theorem locate_opb (h : a.toNat = 0xF) : locate cap a = some ⟨.opb, 0xF, 1, true⟩ :=
  locate_of_mem (by simp [addressMap]) (by simp [h]) (by simp [h])

theorem locate_res (h : a.toNat = 0x10) : locate cap a = some ⟨.res, 0x10, 1, false⟩ :=
  locate_of_mem (by simp [addressMap]) (by simp [h]) (by simp [h])

theorem locate_key {k : Nat} (hk : k < 16) (h : a.toNat = 0x20 + k) : locate cap a = some ⟨.key, 0x20, 16, true⟩ :=
  locate_of_mem (by simp [addressMap]) (by simp; omega) (by simp; omega)

theorem locate_state {k : Nat} (hk : k < 16) (h : a.toNat = 0x30 + k) :
    locate cap a = some ⟨.state, 0x30, 16, true⟩ :=
  locate_of_mem (by simp [addressMap]) (by simp; omega) (by simp; omega)

theorem locate_rk {k : Nat} (hk : k < 176) (h : a.toNat = 0x100 + k) : locate cap a = some ⟨.rk, 0x100, 176, false⟩ :=
  locate_of_mem (by simp [addressMap]) (by simp; omega) (by simp; omega)

theorem locate_sboxRom {i : Nat} (hi : i < 256) (h : a.toNat = 0x200 + i) :
    locate cap a = some ⟨.sboxRom, 0x200, 256, false⟩ :=
  locate_of_mem (by simp [addressMap]) (by simp; omega) (by simp; omega)

theorem locate_invSboxRom {i : Nat} (hi : i < 256) (h : a.toNat = 0x300 + i) :
    locate cap a = some ⟨.invSboxRom, 0x300, 256, false⟩ :=
  locate_of_mem (by simp [addressMap]) (by simp; omega) (by simp; omega)

theorem locate_rconRom {i : Nat} (hi : i < 10) (h : a.toNat = 0x400 + i) :
    locate cap a = some ⟨.rconRom, 0x400, 10, false⟩ :=
  locate_of_mem (by simp [addressMap]) (by simp; omega) (by simp; omega)

theorem locate_inBuf {j : Nat} (hj : j < inCapBytes cap) (h : a.toNat = 0x100000 + j) :
    locate cap a = some ⟨.inBuf, 0x100000, inCapBytes cap, true⟩ :=
  locate_of_mem (by simp [addressMap]) (by simp; omega) (by simp; omega)

theorem locate_outBuf {j : Nat} (hj : j < outCapBytes cap) (h : a.toNat = 0x200000 + j) :
    locate cap a = some ⟨.outBuf, 0x200000, outCapBytes cap, false⟩ :=
  locate_of_mem (by simp [addressMap]) (by simp; omega) (by simp; omega)

end rows

/-- The commands a byte can select. -/
theorem decodeCommand_isCommand {v : Byte} {i : Instr} (h : decodeCommand v = .ok i) : isCommand i = true := by
  have key : ∀ v : Byte, (match decodeCommand v with | .ok i => isCommand i | .error _ => true) = true := by decide
  have := key v
  rw [h] at this
  exact this

/-- `execute(v)` of a legal byte is the meaning of its instruction. -/
theorem executeCommand_of_decode {v : Byte} {i : Instr} (h : decodeCommand v = .ok i) (s : State) :
    executeCommand v s = exec i s := by
  have hc := decodeCommand_isCommand h
  unfold executeCommand
  rw [h]
  cases i <;> first | rfl | simp [isCommand] at hc

/-- `execute(v)` of any other byte is ILLEGAL. -/
theorem executeCommand_of_error {v : Byte} {e : Reject} (h : decodeCommand v = .error e) (s : State) :
    executeCommand v s = .next { s with err := .illegalCommand } := by
  unfold executeCommand
  rw [h]
  rfl

/-- What a WR that answers a next state has done: the address is writable, and its region was stored to. -/
theorem execWr_next {a : Addr} {v : Byte} {s t : State} (h : execWr a v s = .next t) :
    ∃ r, locate s.inCap a = some r ∧ r.writable = true ∧ storeRegion a r.name (a.toNat - r.base) v s = .next t := by
  unfold execWr at h
  split at h
  · cases h
  · next r hr =>
    split at h
    · next hw => exact ⟨r, hr, hw, h⟩
    · cases h

/-- What a RD that answers a next state has done. -/
theorem execRd_next {a : Addr} {s t : State} (h : execRd a s = .next t) :
    ∃ v, hostRead s a = some v ∧ t = { s with lastRead := some v } := by
  unfold execRd at h
  split at h
  · next v hv => cases h; exact ⟨v, hv, rfl⟩
  · cases h

end Sys2Proof.Machine
end

