-- ==== Sys2Proof/Laws/Cbc.lean ====
section
/-! SUPPORT. The byte sequences of the CBC engine (spec/44_cbc_engine.md): lengths, the byte or block at each place, and
on which registers a stream depends. -/

namespace Sys2Proof.Machine

@[simp] theorem inBufBytes_length (s : State) (a n : Nat) : (inBufBytes s a n).length = n := by simp [inBufBytes]

theorem inBufBytes_getElem (s : State) (a n : Nat) {i : Nat} (h : i < n) :
    (inBufBytes s a n)[i]? = some (inBufByte s (a + i)) := by simp [inBufBytes, h]

/-- R161: the padded length. -/
theorem pad_length (m : List Byte) : (pad m).length = 16 * (m.length / 16 + 1) := by
  simp [pad, padLength]; omega

/-- R161: the bytes of a padded message. -/
theorem pad_getElem (m : List Byte) {i : Nat} (h : i < (pad m).length) :
    (pad m)[i]? = some (if i < m.length then m[i]?.getD 0 else BitVec.ofNat 8 (16 - m.length % 16)) := by
  rw [pad_length] at h
  unfold pad
  split
  · next h' => rw [List.getElem?_append_left h']; simp [h']
  · next h' =>
    rw [List.getElem?_append_right (by omega), List.getElem?_replicate, if_pos (by simp [padLength]; omega)]; rfl

@[simp] theorem cbcEncrypt_length (rk : Schedule) (chain : Block) (ms : List Block) :
    (cbcEncrypt rk chain ms).length = ms.length := by
  induction ms generalizing chain with
  | nil => rfl
  | cons m ms ih => simp [cbcEncrypt, ih]

@[simp] theorem cbcDecrypt_length (rk : Schedule) (chain : Block) (cs : List Block) :
    (cbcDecrypt rk chain cs).length = cs.length := by
  induction cs generalizing chain with
  | nil => rfl
  | cons c cs ih => simp [cbcDecrypt, ih]

/-- R164 step 4: block i is the encryption of message block i exclusive-or the block before it in the stream. -/
theorem cbcEncrypt_getElem (rk : Schedule) (chain : Block) (ms : List Block) (i : Nat) (hi : i < ms.length) :
    (cbcEncrypt rk chain ms)[i]? =
      some (encryptBlock (xorBlock ms[i] ((chain :: cbcEncrypt rk chain ms)[i]?.getD default)) rk) := by
  induction ms generalizing chain i with
  | nil => simp at hi
  | cons m ms ih =>
    cases i with
    | zero => simp [cbcEncrypt]
    | succ i =>
      simp only [cbcEncrypt, List.getElem?_cons_succ, List.getElem_cons_succ]
      rw [ih _ i (by simpa using hi)]

/-- R166 step 4: block i is the decryption of ciphertext block i exclusive-or the block before it in the stream. -/
theorem cbcDecrypt_getElem (rk : Schedule) (chain : Block) (cs : List Block) (i : Nat) (hi : i < cs.length) :
    (cbcDecrypt rk chain cs)[i]? = some (xorBlock (decryptBlock cs[i] rk) ((chain :: cs)[i]?.getD default)) := by
  induction cs generalizing chain i with
  | nil => simp at hi
  | cons c cs ih =>
    cases i with
    | zero => simp [cbcDecrypt]
    | succ i =>
      simp only [cbcDecrypt, List.getElem?_cons_succ, List.getElem_cons_succ]
      rw [ih _ i (by simpa using hi)]

/-- The stream of CBCE depends on KEY, IN_LEN, IN_BUF and the IV alone (R41). -/
theorem cbceStream_congr (iv : Block) (s u : State) (h : s.key = u.key) (h' : s.inLen = u.inLen)
    (hb : s.inBuf = u.inBuf) (he : s.epoch = u.epoch) : cbceStream iv s = cbceStream iv u := by
  unfold cbceStream
  rw [h, h']
  simp only [inBufBytes, inBufByte, hb, he]

/-- R160: the stream is the IV and the ciphertext blocks. -/
theorem cbceStream_eq (iv : Block) (s : State) :
    cbceStream iv s = bytesOfBlocks (iv :: cbcEncrypt (expand s.key) iv
      (blocksOfBytes (s.inLen.toNat / 16 + 1) (pad (inBufBytes s 0 s.inLen.toNat)))) := by
  unfold cbceStream
  simp only [bytesOfBlocks_cons, pad_length, inBufBytes_length]
  rw [show 16 * (s.inLen.toNat / 16 + 1) / 16 = s.inLen.toNat / 16 + 1 by omega]

@[simp] theorem cbceStream_length (iv : Block) (s : State) :
    (cbceStream iv s).length = 16 + 16 * (s.inLen.toNat / 16 + 1) := by
  rw [cbceStream_eq, bytesOfBlocks_length, List.length_cons, cbcEncrypt_length, blocksOfBytes_length]
  omega

@[simp] theorem cbcdRecovered_length (s : State) : (cbcdRecovered s).length = 16 * ((s.inLen.toNat - 16) / 16) := by
  simp [cbcdRecovered]

/-- R165, by places. -/
theorem paddingValid_iff (p : List Byte) : paddingValid p = true ↔
    1 ≤ (lastByte p).toNat ∧ (lastByte p).toNat ≤ 16 ∧
      ∀ j, p.length - (lastByte p).toNat ≤ j → j < p.length → p[j]? = some (lastByte p) := by
  unfold paddingValid
  simp only [Bool.and_eq_true, decide_eq_true_eq, List.all_eq_true, beq_iff_eq, and_assoc]
  refine and_congr_right fun _ => and_congr_right fun _ => ?_
  constructor
  · intro h j h1 h2
    rw [List.getElem?_eq_getElem h2]
    congr 1
    apply h
    rw [List.mem_iff_getElem?]
    exact ⟨j - (p.length - (lastByte p).toNat), by
      rw [List.getElem?_drop, List.getElem?_eq_getElem (by omega)]; congr 2; omega⟩
  · intro h x hx
    rw [List.mem_iff_getElem?] at hx
    obtain ⟨i, hi⟩ := hx
    rw [List.getElem?_drop] at hi
    have hlt : p.length - (lastByte p).toNat + i < p.length := by
      by_contra hc
      rw [List.getElem?_eq_none (by omega)] at hi
      cases hi
    have := h _ (by omega) hlt
    rw [this] at hi
    exact (Option.some.inj hi).symm

end Sys2Proof.Machine
end

