-- ==== Sys2Proof/Laws/Encoding.lean ====
section
/-! SUPPORT. Transaction words as numbers (spec/30_encoding.md R88): the value of a packed word, and the fields read back
as quotients and remainders. -/

namespace Sys2Proof

/-- The value of a word packed from W, ADDR and DATA. -/
theorem packTransaction_toNat (b : BitVec 1) (a : Addr) (d : Byte) :
    (packTransaction b a d).toNat = b.toNat * 2 ^ 40 + a.toNat * 2 ^ 8 + d.toNat := by
  have hb := b.isLt
  have ha := a.isLt
  have hd := d.isLt
  change (0#7 ++ b ++ a ++ d : BitVec (7 + 1 + 32 + 8)).toNat = _
  rw [BitVec.toNat_append, BitVec.toNat_append, BitVec.toNat_append,
    ← Nat.shiftLeft_add_eq_or_of_lt hd, ← Nat.shiftLeft_add_eq_or_of_lt ha, ← Nat.shiftLeft_add_eq_or_of_lt hb]
  simp only [Nat.shiftLeft_eq, BitVec.toNat_ofNat]
  omega

theorem wordAddr_toNat (w : TransactionWord) : (wordAddr w).toNat = w.toNat / 2 ^ 8 % 2 ^ 32 := by
  simp [wordAddr, BitVec.extractLsb'_toNat, Nat.shiftRight_eq_div_pow]

theorem wordData_toNat (w : TransactionWord) : (wordData w).toNat = w.toNat % 2 ^ 8 := by
  simp [wordData, BitVec.extractLsb'_toNat]

theorem wordWrites_iff (w : TransactionWord) : wordWrites w = true ↔ w.toNat / 2 ^ 40 % 2 = 1 := by
  simp [wordWrites, BitVec.getLsbD, Nat.testBit, Nat.shiftRight_eq_div_pow]

theorem reservedBits_toNat (w : TransactionWord) : (w.extractLsb' 41 7).toNat = w.toNat / 2 ^ 41 := by
  have := w.isLt
  simp [BitVec.extractLsb'_toNat, Nat.shiftRight_eq_div_pow]
  omega

/-- A word is its four fields. -/
theorem word_eq_fields (w : TransactionWord) (h : w.extractLsb' 41 7 = 0#7) :
    w = packTransaction (BitVec.ofBool (wordWrites w)) (wordAddr w) (wordData w) := by
  have hw := wordWrites_iff w
  have hr := reservedBits_toNat w
  rw [h] at hr
  apply BitVec.eq_of_toNat_eq
  rw [packTransaction_toNat, wordAddr_toNat, wordData_toNat]
  have hlt := w.isLt
  rcases hb : wordWrites w with _ | _
  · have h0 : ¬ w.toNat / 2 ^ 40 % 2 = 1 := fun h1 => by rw [hw.mpr h1] at hb; cases hb
    simp at hr ⊢
    omega
  · have h1 := hw.mp hb
    simp at hr ⊢
    omega

/-- The fields of a packed word. -/
theorem fields_packTransaction (b : BitVec 1) (a : Addr) (d : Byte) :
    (packTransaction b a d).extractLsb' 41 7 = 0#7 ∧ (wordWrites (packTransaction b a d) = true ↔ b = 1#1) ∧
      wordAddr (packTransaction b a d) = a ∧ wordData (packTransaction b a d) = d := by
  have hp := packTransaction_toNat b a d
  have hb := b.isLt
  have ha := a.isLt
  have hd := d.isLt
  refine ⟨BitVec.eq_of_toNat_eq ?_, ?_, BitVec.eq_of_toNat_eq ?_, BitVec.eq_of_toNat_eq ?_⟩
  · rw [reservedBits_toNat, hp]; simp; omega
  · rw [wordWrites_iff, hp, ← BitVec.toNat_inj]; simp; omega
  · rw [wordAddr_toNat, hp]; omega
  · rw [wordData_toNat, hp]; omega

end Sys2Proof
end

