-- ==== Sys2Proof/Laws/Exec.lean ====
section
/-! SUPPORT. What each meaning can do, said once: for every instruction the cases of its answer, and for the RNG port
and the step the cases of theirs. Later proofs cite these instead of unfolding a meaning. -/

namespace Sys2Proof.Machine

/-- One poll of the RNG port: the next entry of the list, or a free value once the list is used up. -/
theorem rngPoll_cases (s : State) :
    (∃ x rest, s.rngScript = x :: rest ∧ rngPoll s = (x, { s with rngScript := rest })) ∨
    (s.rngScript = [] ∧ rngPoll s = (Config.rngFree s.rngPolls, { s with rngPolls := s.rngPolls + 1 })) := by
  unfold rngPoll
  split
  · next x rest h => exact .inl ⟨x, rest, h, rfl⟩
  · next h => exact .inr ⟨h, rfl⟩

/-- A poll changes nothing but the RNG port. -/
theorem rngPoll_state (s : State) :
    ∃ script polls, (rngPoll s).2 = { s with rngScript := script, rngPolls := polls } := by
  rcases rngPoll_cases s with ⟨x, rest, _, h⟩ | ⟨_, h⟩ <;> rw [h] <;> exact ⟨_, _, rfl⟩

/-- What a poll finds, and what is left of the port, depend on the port alone. -/
theorem rngPoll_congr {s u : State} (h : s.rngScript = u.rngScript) (h' : s.rngPolls = u.rngPolls) :
    (rngPoll s).1 = (rngPoll u).1 ∧ (rngPoll s).2.rngScript = (rngPoll u).2.rngScript ∧
      (rngPoll s).2.rngPolls = (rngPoll u).2.rngPolls := by
  unfold rngPoll
  rw [h, h']
  split <;> simp [*]

/-- A poll changes the port and nothing else. -/
theorem rngPoll_snd (s : State) :
    (rngPoll s).2 = { s with rngScript := (rngPoll s).2.rngScript, rngPolls := (rngPoll s).2.rngPolls } := by
  rcases rngPoll_cases s with ⟨x, rest, _, h⟩ | ⟨_, h⟩ <;> rw [h]

/-- A poll without an answer leaves the CBCE waiting. -/
theorem cbceResume_of_none {s : State} (h : (rngPoll s).1 = none) :
    cbceResume s = .next { s with rngScript := (rngPoll s).2.rngScript, rngPolls := (rngPoll s).2.rngPolls } := by
  rw [← rngPoll_snd]
  unfold cbceResume
  rcases hp : rngPoll s with ⟨x, s'⟩
  rw [hp] at h
  subst h
  rfl

/-- A poll with an answer completes the CBCE. -/
theorem cbceResume_of_some {s : State} {iv : Block} (h : (rngPoll s).1 = some iv) :
    cbceResume s =
      .next (cbceFinish iv { s with rngScript := (rngPoll s).2.rngScript, rngPolls := (rngPoll s).2.rngPolls }) := by
  rw [← rngPoll_snd]
  unfold cbceResume
  rcases hp : rngPoll s with ⟨x, s'⟩
  rw [hp] at h
  subst h
  rfl

/-- A CBCE that polls either completes with the answer or waits, the port apart. -/
theorem cbceResume_cases (s : State) :
    ∃ script polls, cbceResume s = .next { s with rngScript := script, rngPolls := polls } ∨
      ∃ iv, cbceResume s = .next (cbceFinish iv { s with rngScript := script, rngPolls := polls }) := by
  obtain ⟨script, polls, h⟩ := rngPoll_state s
  refine ⟨script, polls, ?_⟩
  unfold cbceResume
  rcases hp : rngPoll s with ⟨_ | iv, s'⟩
  · left; rw [hp] at h; simp only at h; rw [h]
  · right; rw [hp] at h; simp only at h; exact ⟨iv, by rw [h]⟩

theorem execKeyexp_cases (s : State) :
    (s.keyLen = 0x10#8 ∧ execKeyexp s = .next { s with rk := expand s.key, schedValid := true, err := .ok }) ∨
    (s.keyLen ≠ 0x10#8 ∧ execKeyexp s = .next { s with err := .invalidKeyLength }) := by
  by_cases h : s.keyLen = 0x10#8
  · left; simp [execKeyexp, keyLenLegal, h, setErr, installSchedule]
  · right; simp [execKeyexp, keyLenLegal, h, failCommand, setErr]

theorem execArk_cases (s : State) :
    (s.schedValid = false ∧ execArk s = .next { s with err := .noSchedule }) ∨
    (s.schedValid = true ∧ 10 < s.round.toNat ∧ execArk s = .next { s with err := .badOperand }) ∨
    (s.schedValid = true ∧ s.round.toNat ≤ 10 ∧
      execArk s = .next { s with state := addRoundKey s.state (roundKey s.rk s.round.toNat), err := .ok }) := by
  rcases hv : s.schedValid with _ | _
  · left; simp [execArk, hv, failCommand, setErr]
  · right
    by_cases h : s.round.toNat ≤ 10
    · right; simp [execArk, hv, roundLegal, h, finishState, setErr]
    · left; simp only [execArk, hv, roundLegal, h, failCommand, setErr]; simp; omega

theorem execEncb_cases (s : State) :
    (s.schedValid = false ∧ execEncb s = .next { s with err := .noSchedule }) ∨
    (s.schedValid = true ∧ execEncb s = .next { s with state := encryptBlock s.state s.rk, err := .ok }) := by
  rcases hv : s.schedValid with _ | _
  · left; simp [execEncb, hv, failCommand, setErr]
  · right; simp [execEncb, hv, finishState, setErr]

theorem execDecb_cases (s : State) :
    (s.schedValid = false ∧ execDecb s = .next { s with err := .noSchedule }) ∨
    (s.schedValid = true ∧ execDecb s = .next { s with state := decryptBlock s.state s.rk, err := .ok }) := by
  rcases hv : s.schedValid with _ | _
  · left; simp [execDecb, hv, failCommand, setErr]
  · right; simp [execDecb, hv, finishState, setErr]

/-- CBCE fails a precheck, or issues its request and polls. -/
theorem execCbce_cases (s : State) :
    (inCapBytes s.inCap < s.inLen.toNat ∧
      execCbce s = .next { s with err := .lengthRange, outLen := 0x00000000#32, cbcst := .idle }) ∨
    (s.inLen.toNat ≤ inCapBytes s.inCap ∧ s.keyLen ≠ 0x10#8 ∧
      execCbce s = .next { s with err := .invalidKeyLength, outLen := 0x00000000#32, cbcst := .idle }) ∨
    (s.inLen.toNat ≤ inCapBytes s.inCap ∧ s.keyLen = 0x10#8 ∧ execCbce s = cbceResume (rngRequest s)) := by
  by_cases hl : s.inLen.toNat ≤ inCapBytes s.inCap
  · right
    by_cases hk : s.keyLen = 0x10#8
    · right; simp [execCbce, inLenInRange, keyLenLegal, hl, hk]
    · left; simp [execCbce, inLenInRange, keyLenLegal, hl, hk, failCbc, failCommand, setErr]
  · left; refine ⟨by omega, ?_⟩; simp [execCbce, inLenInRange, hl, failCbc, failCommand, setErr]

/-- CBCD fails one of its four checks, or recovers a message with valid padding. -/
theorem execCbcd_cases (s : State) :
    (inCapBytes s.inCap < s.inLen.toNat ∧
      execCbcd s = .next { s with err := .lengthRange, outLen := 0x00000000#32, cbcst := .idle }) ∨
    (s.inLen.toNat ≤ inCapBytes s.inCap ∧ s.keyLen ≠ 0x10#8 ∧
      execCbcd s = .next { s with err := .invalidKeyLength, outLen := 0x00000000#32, cbcst := .idle }) ∨
    (s.inLen.toNat ≤ inCapBytes s.inCap ∧ s.keyLen = 0x10#8 ∧
      (s.inLen.toNat < 32 ∨ (s.inLen.toNat - 16) % 16 ≠ 0) ∧
      execCbcd s = .next { s with err := .malformedCiphertext, outLen := 0x00000000#32, cbcst := .idle }) ∨
    (s.inLen.toNat ≤ inCapBytes s.inCap ∧ s.keyLen = 0x10#8 ∧ 32 ≤ s.inLen.toNat ∧ (s.inLen.toNat - 16) % 16 = 0 ∧
      paddingValid (cbcdRecovered s) = false ∧
      execCbcd s = .next { s with err := .paddingInvalid, outLen := 0x00000000#32, cbcst := .rejected,
                                  rk := expand s.key, schedValid := true }) ∨
    (s.inLen.toNat ≤ inCapBytes s.inCap ∧ s.keyLen = 0x10#8 ∧ 32 ≤ s.inLen.toNat ∧ (s.inLen.toNat - 16) % 16 = 0 ∧
      paddingValid (cbcdRecovered s) = true ∧
      execCbcd s = .next (cbcdFinish (cbcdRecovered s) (installSchedule (expand s.key) s))) := by
  by_cases hl : s.inLen.toNat ≤ inCapBytes s.inCap
  swap
  · left; refine ⟨by omega, ?_⟩; simp [execCbcd, inLenInRange, hl, failCbc, failCommand, setErr]
  right
  by_cases hk : s.keyLen = 0x10#8
  swap
  · left; simp [execCbcd, inLenInRange, keyLenLegal, hl, hk, failCbc, failCommand, setErr]
  right
  by_cases hs : inLenWellShaped s = true
  swap
  · left
    refine ⟨hl, hk, ?_, ?_⟩
    · simp only [inLenWellShaped, Bool.and_eq_true, decide_eq_true_eq, beq_iff_eq] at hs; omega
    · simp [execCbcd, inLenInRange, keyLenLegal, hl, hk, hs, failCbc, failCommand, setErr]
  right
  have hs' : 32 ≤ s.inLen.toNat ∧ (s.inLen.toNat - 16) % 16 = 0 := by
    simpa [inLenWellShaped] using hs
  rcases hp : paddingValid (cbcdRecovered s) with _ | _
  · left
    refine ⟨hl, hk, hs'.1, hs'.2, rfl, ?_⟩
    simp [execCbcd, inLenInRange, keyLenLegal, hl, hk, hs, hp, failCbc, failCommand, setErr, installSchedule]
  · right
    refine ⟨hl, hk, hs'.1, hs'.2, rfl, ?_⟩
    simp [execCbcd, inLenInRange, keyLenLegal, hl, hk, hs, hp]

/-- A store that answers a next state is one of the writable rows' stores. -/
theorem storeRegion_cases {a : Addr} {n : RegionName} {j : Nat} {v : Byte} {s t : State}
    (h : storeRegion a n j v s = .next t) :
    (n = .cmd ∧ executeCommand v { s with cmd := v } = .next t) ∨
    (n = .inLen ∧ t = { s with inLen := setCountByte s.inLen j v }) ∨
    (n = .keyLen ∧ t = { s with keyLen := v, schedValid := false }) ∨
    (n = .round ∧ t = { s with round := v }) ∨
    (n = .opa ∧ t = { s with opa := v }) ∨
    (n = .opb ∧ t = { s with opb := v }) ∨
    (n = .key ∧ t = { s with key := setBlockByte s.key j v, schedValid := false }) ∨
    (n = .state ∧ t = { s with state := setBlockByte s.state j v }) ∨
    (n = .inBuf ∧ t = { s with inBuf := Memory.write s.inBuf j v }) := by
  cases n <;> simp only [storeRegion] at h <;>
    first
    | (cases h; done)
    | (cases h; simp [clearSchedule, inBufWrite])
    | simp [h]

/-- A command other than CBCE and CBCD that answers a next state: a new STATE, an error code alone, a product, or a new
schedule. -/
theorem exec_blockCommand_cases {i : Instr} {s t : State} (hc : isCommand i = true) (hn : runsCbc i = false)
    (h : exec i s = .next t) :
    (∃ b, t = { s with state := b, err := .ok } ∧
      i ∈ [Instr.subb, .isubb, .shr, .ishr, .mixc, .imixc, .ark, .encb, .decb]) ∨
    (t = { s with err := t.err } ∧ t.err ≠ .ok) ∨
    (i = .gfmul ∧ t = { s with res := gmul s.opa s.opb, err := .ok }) ∨
    (i = .keyexp ∧ s.keyLen = 0x10#8 ∧ t = { s with rk := expand s.key, schedValid := true, err := .ok }) := by
  cases i <;> simp [isCommand, runsCbc] at hc hn
  case gfmul => cases h; exact .inr (.inr (.inl ⟨rfl, rfl⟩))
  case keyexp =>
    rcases execKeyexp_cases s with ⟨hk, e⟩ | ⟨_, e⟩ <;> cases e.symm.trans h
    · exact .inr (.inr (.inr ⟨rfl, hk, rfl⟩))
    · exact .inr (.inl ⟨rfl, by simp⟩)
  case ark =>
    rcases execArk_cases s with ⟨_, e⟩ | ⟨_, _, e⟩ | ⟨_, _, e⟩ <;> cases e.symm.trans h <;>
      first | exact .inl ⟨_, rfl, by simp⟩ | exact .inr (.inl ⟨rfl, by simp⟩)
  case encb =>
    rcases execEncb_cases s with ⟨_, e⟩ | ⟨_, e⟩ <;> cases e.symm.trans h <;>
      first | exact .inl ⟨_, rfl, by simp⟩ | exact .inr (.inl ⟨rfl, by simp⟩)
  case decb =>
    rcases execDecb_cases s with ⟨_, e⟩ | ⟨_, e⟩ <;> cases e.symm.trans h <;>
      first | exact .inl ⟨_, rfl, by simp⟩ | exact .inr (.inl ⟨rfl, by simp⟩)
  all_goals (cases h; exact .inl ⟨_, rfl, by simp⟩)

/-- A CMD write that answers a next state ran a command of the table, or ILLEGAL. -/
theorem executeCommand_cases {v : Byte} {s t : State} (h : executeCommand v s = .next t) :
    (∃ i, decodeCommand v = .ok i ∧ isCommand i = true ∧ exec i s = .next t) ∨
    ((∃ e, decodeCommand v = .error e) ∧ t = { s with err := .illegalCommand }) := by
  rcases hd : decodeCommand v with e | i
  · rw [executeCommand_of_error hd] at h; cases h; exact .inr ⟨⟨_, rfl⟩, rfl⟩
  · rw [executeCommand_of_decode hd] at h; exact .inl ⟨i, rfl, decodeCommand_isCommand hd, h⟩

/-- A WR that answers a next state: the command of a CMD write, or one store with its place. -/
theorem execWr_cases {a : Addr} {v : Byte} {s t : State} (h : execWr a v s = .next t) :
    (a = cmdAddr ∧ executeCommand v { s with cmd := v } = .next t) ∨
    (∃ j, j < 4 ∧ a.toNat = 0x4 + j ∧ t = { s with inLen := setCountByte s.inLen j v }) ∨
    (a.toNat = 0xC ∧ t = { s with keyLen := v, schedValid := false }) ∨
    (a.toNat = 0xD ∧ t = { s with round := v }) ∨
    (a.toNat = 0xE ∧ t = { s with opa := v }) ∨
    (a.toNat = 0xF ∧ t = { s with opb := v }) ∨
    (∃ k, k < 16 ∧ a.toNat = 0x20 + k ∧ t = { s with key := setBlockByte s.key k v, schedValid := false }) ∨
    (∃ k, k < 16 ∧ a.toNat = 0x30 + k ∧ t = { s with state := setBlockByte s.state k v }) ∨
    (∃ j, j < inCapBytes s.inCap ∧ a.toNat = 0x100000 + j ∧ t = { s with inBuf := Memory.write s.inBuf j v }) := by
  unfold execWr at h
  rcases hl : locate s.inCap a with _ | r
  · rw [hl] at h; cases h
  rw [hl] at h
  obtain ⟨hm, h1, h2⟩ := locate_eq_some hl
  rcases (mem_addressMap _ _).mp hm with rfl | rfl | rfl | rfl | rfl | rfl | rfl | rfl | rfl | rfl | rfl | rfl | rfl |
    rfl | rfl | rfl | rfl <;> simp only [Bool.false_eq_true, if_false, if_true, storeRegion, reduceCtorEq] at h h1 h2
  · exact .inl ⟨BitVec.eq_of_toNat_eq (by simp [cmdAddr]; omega), h⟩
  · cases h; exact .inr (.inl ⟨a.toNat - 0x4, by omega, by omega, rfl⟩)
  · cases h; exact .inr (.inr (.inl ⟨by omega, rfl⟩))
  · cases h; exact .inr (.inr (.inr (.inl ⟨by omega, rfl⟩)))
  · cases h; exact .inr (.inr (.inr (.inr (.inl ⟨by omega, rfl⟩))))
  · cases h; exact .inr (.inr (.inr (.inr (.inr (.inl ⟨by omega, rfl⟩)))))
  · cases h; exact .inr (.inr (.inr (.inr (.inr (.inr (.inl ⟨a.toNat - 0x20, by omega, by omega, rfl⟩))))))
  · cases h; exact .inr (.inr (.inr (.inr (.inr (.inr (.inr (.inl ⟨a.toNat - 0x30, by omega, by omega, rfl⟩)))))))
  · cases h; exact .inr (.inr (.inr (.inr (.inr (.inr (.inr (.inr ⟨a.toNat - 0x100000, by omega, by omega, rfl⟩)))))))

/-- A step: a poll of a waiting CBCE, idling, a reset event, or a transaction word. -/
theorem step_cases (s : State) :
    (s.rngPending = true ∧ step s = cbceResume s) ∨
    (s.rngPending = false ∧ s.inputs = [] ∧ step s = .next s) ∨
    (∃ rest, s.rngPending = false ∧ s.inputs = .reset :: rest ∧ step s = .next (hardReset { s with inputs := rest })) ∨
    (∃ w rest, s.rngPending = false ∧ s.inputs = .word w :: rest ∧ step s = runWord w { s with inputs := rest }) := by
  rcases hp : s.rngPending with _ | _
  · right
    rcases hi : s.inputs with _ | ⟨_ | _, rest⟩ <;> simp [step, hp, hi]
  · left; simp [step, hp]

end Sys2Proof.Machine
end

