-- ==== Sys2Proof/Laws/Galois.lean ====
section
/-! SUPPORT. The multiplication loop one round at a time (spec/40_galois_rom.md R100). -/

namespace Sys2Proof.Machine

/-- The reduced left shift is linear. -/
theorem xtime_xor (a b : Byte) : xtime (a ^^^ b) = xtime a ^^^ xtime b := by
  unfold xtime
  rw [BitVec.getLsbD_xor, BitVec.shiftLeft_xor_distrib]
  generalize a <<< 1 = u
  generalize b <<< 1 = v
  rcases a.getLsbD 7 with _ | _ <;> rcases b.getLsbD 7 with _ | _ <;> simp
  · ac_rfl
  · ac_rfl
  · rw [BitVec.xor_comm v, BitVec.xor_assoc u, ← BitVec.xor_assoc 27#8]; simp

/-- The loop adds its product to the accumulator it starts from. -/
theorem gmulLoop_acc (n : Nat) (a b p : Byte) : gmulLoop n a b p = p ^^^ gmulLoop n a b 0 := by
  induction n generalizing a b p with
  | zero => simp [gmulLoop]
  | succ n ih =>
    simp only [gmulLoop]
    rcases b.getLsbD 0 with _ | _
    · exact ih _ _ _
    · simp only [if_true]
      rw [ih _ _ (p ^^^ a), ih _ _ (0 ^^^ a)]
      simp [BitVec.xor_assoc]

theorem gmulLoop_succ (n : Nat) (a b : Byte) :
    gmulLoop (n + 1) a b 0 = (if b.getLsbD 0 then a else 0) ^^^ gmulLoop n (xtime a) (b >>> 1) 0 := by
  simp only [gmulLoop]
  rw [gmulLoop_acc]; simp

end Sys2Proof.Machine
end

