-- ==== Sys2Proof/Laws/Memory.lean ====
section
/-! SUPPORT. What the RAM operations do: a read after a write, at the same offset and at every other one, and that every
write keeps the canonical form and the bounds. -/

namespace Sys2Proof.Machine

@[simp] theorem Memory.lookup_nil (j : Nat) : Memory.lookup [] j = none := rfl

theorem Memory.lookup_write_self (m : Memory) (j : Nat) (v : Byte) : Memory.lookup (Memory.write m j v) j = some v := by
  induction m with
  | nil => simp [Memory.write, Memory.lookup]
  | cons c m ih =>
    obtain ⟨k, u⟩ := c
    simp only [Memory.write]
    split
    · simp [Memory.lookup]
    · split
      · simp [Memory.lookup]
      · next h => simp [Memory.lookup, Ne.symm h, ih]

theorem Memory.lookup_write_ne (m : Memory) {i j : Nat} (h : i ≠ j) (v : Byte) :
    Memory.lookup (Memory.write m j v) i = Memory.lookup m i := by
  induction m with
  | nil => simp [Memory.write, Memory.lookup, Ne.symm h]
  | cons c m ih =>
    obtain ⟨k, u⟩ := c
    simp only [Memory.write]
    split
    · simp [Memory.lookup, Ne.symm h]
    · split
      · next hjk => subst hjk; simp [Memory.lookup, Ne.symm h]
      · simp [Memory.lookup, ih]

theorem Memory.lookup_write (m : Memory) (i j : Nat) (v : Byte) :
    Memory.lookup (Memory.write m j v) i = if i = j then some v else Memory.lookup m i := by
  split
  · next h => subst h; exact lookup_write_self m i v
  · next h => exact lookup_write_ne m h v

/-- A sequence write is seen at exactly the offsets it covers. -/
theorem Memory.lookup_writeBytes (m : Memory) (a : Nat) (l : List Byte) (i : Nat) :
    Memory.lookup (Memory.writeBytes m a l) i =
      if a ≤ i ∧ i < a + l.length then l[i - a]? else Memory.lookup m i := by
  induction l generalizing m a with
  | nil => simp only [Memory.writeBytes, List.length_nil]; split <;> [omega; rfl]
  | cons v vs ih =>
    simp only [Memory.writeBytes, ih, Memory.lookup_write, List.length_cons]
    by_cases h : i = a
    · subst h; simp
    · by_cases h' : a + 1 ≤ i ∧ i < a + 1 + vs.length
      · rw [if_pos h', if_pos (by omega), show i - a = (i - (a + 1)) + 1 by omega]; simp
      · rw [if_neg h', if_neg h, if_neg (by omega)]

theorem Memory.keys_write (m : Memory) (j : Nat) (v : Byte) (k : Nat) :
    k ∈ (Memory.write m j v).map Prod.fst → k = j ∨ k ∈ m.map Prod.fst := by
  induction m with
  | nil => simp [Memory.write]
  | cons c m ih =>
    obtain ⟨i, u⟩ := c
    simp only [Memory.write]
    split
    · simp
    · split
      · simp only [List.map_cons, List.mem_cons]; tauto
      · simp only [List.map_cons, List.mem_cons]; intro h; rcases h with h | h
        · tauto
        · rcases ih h with h | h <;> tauto

/-- A write keeps the offsets strictly rising. -/
theorem Memory.write_wf (m : Memory) (j : Nat) (v : Byte) (h : Memory.wf m) : Memory.wf (Memory.write m j v) := by
  induction m with
  | nil => simp [Memory.write, Memory.wf]
  | cons c m ih =>
    obtain ⟨k, u⟩ := c
    obtain ⟨hk, hm⟩ := List.pairwise_cons.mp h
    simp only [Memory.write]
    split
    · next hjk =>
      refine List.pairwise_cons.mpr ⟨fun i hi => ?_, h⟩
      rcases List.mem_cons.mp hi with rfl | hi
      · exact hjk
      · exact Nat.lt_trans hjk (hk i hi)
    · split
      · next hjk => subst hjk; exact List.pairwise_cons.mpr ⟨hk, hm⟩
      · refine List.pairwise_cons.mpr ⟨fun i hi => ?_, ih hm⟩
        rcases Memory.keys_write m j v i hi with rfl | hi
        · omega
        · exact hk i hi

theorem Memory.writeBytes_wf (m : Memory) (a : Nat) (l : List Byte) (h : Memory.wf m) :
    Memory.wf (Memory.writeBytes m a l) := by
  induction l generalizing m a with
  | nil => exact h
  | cons v vs ih => exact ih _ _ (Memory.write_wf m a v h)

/-- A write inside a RAM's bounds keeps every listed offset inside them. -/
theorem Memory.write_within (m : Memory) (j : Nat) (v : Byte) (size : Nat) (h : Memory.within m size) (hj : j < size) :
    Memory.within (Memory.write m j v) size := by
  intro c hc
  rcases Memory.keys_write m j v c.1 (List.mem_map_of_mem hc) with hk | hk
  · omega
  · obtain ⟨d, hd, hdc⟩ := List.mem_map.mp hk
    exact hdc ▸ h d hd

theorem Memory.writeBytes_within (m : Memory) (a : Nat) (l : List Byte) (size : Nat) (h : Memory.within m size)
    (hl : a + l.length ≤ size) : Memory.within (Memory.writeBytes m a l) size := by
  induction l generalizing m a with
  | nil => exact h
  | cons v vs ih =>
    simp only [List.length_cons] at hl
    exact ih _ _ (Memory.write_within m a v size h (by omega)) (by omega)

/-- In canonical form, two RAMs with the same bytes at every offset are the same data. -/
theorem Memory.ext_of_wf (m n : Memory) (hm : Memory.wf m) (hn : Memory.wf n)
    (h : ∀ j, Memory.lookup m j = Memory.lookup n j) : m = n := by
  have below : ∀ (m : Memory) (k : Nat), (∀ i ∈ m.map Prod.fst, k < i) → ∀ j ≤ k, Memory.lookup m j = none := by
    intro m
    induction m with
    | nil => simp
    | cons c m ih =>
      obtain ⟨i, u⟩ := c
      intro k hk j hj
      have hi := hk i (by simp)
      simp only [Memory.lookup]
      rw [if_neg (by omega)]
      exact ih k (fun i hi => hk i (by simp_all)) j hj
  induction m generalizing n with
  | nil =>
    cases n with
    | nil => rfl
    | cons c n => have := h c.1; simp [Memory.lookup] at this
  | cons c m ih =>
    obtain ⟨k, u⟩ := c
    obtain ⟨hk, hm'⟩ := List.pairwise_cons.mp hm
    cases n with
    | nil => have := h k; simp [Memory.lookup] at this
    | cons d n =>
      obtain ⟨k', u'⟩ := d
      obtain ⟨hk', hn'⟩ := List.pairwise_cons.mp hn
      have hkk : k = k' := by
        rcases Nat.lt_trichotomy k k' with hlt | heq | hlt
        · have := h k
          simp only [Memory.lookup, if_pos] at this
          rw [if_neg (by omega), below n k' hk' k (by omega)] at this
          cases this
        · exact heq
        · have := h k'
          simp only [Memory.lookup, if_pos] at this
          rw [if_neg (by omega), below m k hk k' (by omega)] at this
          cases this
      subst hkk
      have hu := h k
      simp only [Memory.lookup, if_pos, Option.some.injEq] at hu
      subst hu
      rw [ih n hm' hn' ?_]
      intro j
      have := h j
      simp only [Memory.lookup] at this
      by_cases hj : k = j
      · subst hj; rw [below m k hk k (Nat.le_refl k), below n k hk' k (Nat.le_refl k)]
      · simpa [hj] using this

end Sys2Proof.Machine
end

