-- ==== Sys2Proof/Laws/PerInstr.lean ====
section
/-! SUPPORT. Per instruction: it is well formed, and its encoding is one the spec admits, a command byte of the table
(spec/30_encoding.md R82) or a transaction word with its reserved bits and the DATA of a read clear (R88, R89). -/

namespace Sys2Proof.Laws.EncodingAdmitted

/-- The encoding of `i` is one the spec admits. -/
def Statement (i : Instr) : Prop :=
  i.wellFormed = true ∧
    match encode i with
    | .command v => (commandTable.lookup v).isSome = true
    | .transaction w => wordWellFormed w = true

theorem packed_wellFormed (b : BitVec 1) (a : Addr) (d : Byte) (h : b = 1#1 ∨ d = 0#8) :
    wordWellFormed (packTransaction b a d) = true := by
  have hp := packTransaction_toNat b a d
  have hb := b.isLt
  have ha := a.isLt
  have hd := d.isLt
  have hr : reservedBitsClear (packTransaction b a d) = true := by
    rw [reservedBitsClear, beq_iff_eq]
    apply BitVec.eq_of_toNat_eq
    rw [BitVec.toNat_ushiftRight, hp, Nat.shiftRight_eq_div_pow]
    simp
    omega
  have hw : readDataClear (packTransaction b a d) = true := by
    rcases h with rfl | rfl
    · have := (fields_packTransaction 1#1 a d).2.1.mpr rfl
      rw [wordWrites] at this
      simp only [readDataClear, this, Bool.true_or]
    · have : (packTransaction b a 0#8).setWidth 8 = 0#8 := by
        apply BitVec.eq_of_toNat_eq
        rw [BitVec.toNat_setWidth, hp]
        simp
        omega
      simp only [readDataClear, this, beq_self_eq_true, Bool.or_true]
  simp only [wordWellFormed, hr, hw, Bool.and_self]

theorem gfmul : Statement .gfmul := ⟨rfl, rfl⟩
theorem keyexp : Statement .keyexp := ⟨rfl, rfl⟩
theorem subb : Statement .subb := ⟨rfl, rfl⟩
theorem isubb : Statement .isubb := ⟨rfl, rfl⟩
theorem shr : Statement .shr := ⟨rfl, rfl⟩
theorem ishr : Statement .ishr := ⟨rfl, rfl⟩
theorem mixc : Statement .mixc := ⟨rfl, rfl⟩
theorem imixc : Statement .imixc := ⟨rfl, rfl⟩
theorem ark : Statement .ark := ⟨rfl, rfl⟩
theorem encb : Statement .encb := ⟨rfl, rfl⟩
theorem decb : Statement .decb := ⟨rfl, rfl⟩
theorem cbce : Statement .cbce := ⟨rfl, rfl⟩
theorem cbcd : Statement .cbcd := ⟨rfl, rfl⟩
theorem rd (addr : Addr) : Statement (.rd addr) := ⟨rfl, packed_wellFormed 0 addr 0 (.inr rfl)⟩
theorem wr (addr : Addr) (data : Byte) : Statement (.wr addr data) := ⟨rfl, packed_wellFormed 1 addr data (.inl rfl)⟩

end Sys2Proof.Laws.EncodingAdmitted
end

