-- ==== Sys2Proof/Laws/Run.lean ====
section
/-! SUPPORT. Runs of several steps, one step at a time. -/

namespace Sys2Proof.Machine

theorem run_next {M : Host.Core} {s t : M.State} (n : Nat) (h : M.step s = .next t) : M.run (n + 1) s = M.run n t := by
  simp only [Host.Core.run, h]

theorem run_fault {M : Host.Core} {s : M.State} {f : M.Fault} (n : Nat) (h : M.step s = .fault f) :
    M.run (n + 1) s = .fault f := by
  simp only [Host.Core.run, h]

theorem run_refused {M : Host.Core} {s : M.State} {r : M.Refusal} (n : Nat) (h : M.step s = .refused r) :
    M.run (n + 1) s = .refused r := by
  simp only [Host.Core.run, h]

/-- A run goes on from the next state of its first step. -/
theorem run_succ_next {s t : State} (n : Nat) (h : step s = .next t) :
    Host.Core.run Sys2Proof.core (n + 1) s = Host.Core.run Sys2Proof.core n t := run_next (M := Sys2Proof.core) n h

/-- A run ends at its first fault. -/
theorem run_succ_fault {s : State} {f : Fault} (n : Nat) (h : step s = .fault f) :
    Host.Core.run Sys2Proof.core (n + 1) s = .fault f := run_fault (M := Sys2Proof.core) n h

/-- A run ends at its first refusal. -/
theorem run_succ_refused {s : State} {r : Refusal} (n : Nat) (h : step s = .refused r) :
    Host.Core.run Sys2Proof.core (n + 1) s = .refused r := run_refused (M := Sys2Proof.core) n h

end Sys2Proof.Machine
end

