-- ==== Sys2Proof/Machine/Assembler.lean ====
section
/-! DEFINITION. The host assembly (spec/30_encoding.md R90, R91): one line of text to one line of a host program, or to
none for a blank or comment line. Every other text is rejected by name. Where R90 is silent the assembler is as narrow
as the spec's own programs: capital letters in names, one `+` at most, no sign (log 21). -/

namespace Sys2Proof.Machine

/-- A token of a line. -/
inductive Token where
  | word (l : List Char)
  | comma
  | arrow
deriving DecidableEq, Repr

/-- Why a line is rejected. -/
inductive AsmError where
  /-- The tokens form none of the lines of R90 and R91. -/
  | badLine
  /-- An address that is no 32-bit number and no name of the map. -/
  | badAddress (l : List Char)
  /-- A number out of its range, or no number. -/
  | badNumber (l : List Char)
  /-- A hex string that is not whole bytes, or not of the length the line needs. -/
  | badHex (l : List Char)
  /-- `CMD m` where `m` is none of R82's mnemonics. -/
  | badMnemonic (l : List Char)
  /-- A byte range that leaves the address space. -/
  | badRange
deriving DecidableEq, Repr

/-- The word collected so far, if any. -/
def flushWord (acc : List Char) : List Token := if acc.isEmpty then [] else [.word acc]

/-- The tokens of a line; text from `;` on is a comment. -/
def lexLine : (acc line : List Char) → List Token
  | acc, [] => flushWord acc
  | acc, c :: cs =>
    if c = ';' then flushWord acc
    else if c = ' ' ∨ c = '\t' then flushWord acc ++ lexLine [] cs
    else if c = ',' then flushWord acc ++ .comma :: lexLine [] cs
    else if c = '>' ∧ acc = ['-'] then .arrow :: lexLine [] cs
    else lexLine (acc ++ [c]) cs

/-- The value of a hex digit. -/
def hexDigit (c : Char) : Option Nat :=
  let n := c.toNat
  if 48 ≤ n ∧ n ≤ 57 then some (n - 48)
  else if 97 ≤ n ∧ n ≤ 102 then some (n - 87)
  else if 65 ≤ n ∧ n ≤ 70 then some (n - 55)
  else none

/-- The number of a digit sequence in a base, after the digits read so far. -/
def digitsValue (base : Nat) : (sofar : Nat) → List Char → Option Nat
  | n, [] => some n
  | n, c :: cs =>
    match hexDigit c with
    | some d => if d < base then digitsValue base (base * n + d) cs else none
    | none => none

/-- A number in hex (`0x…`) or decimal (R90). -/
def parseNumber : List Char → Option Nat
  | [] => none
  | '0' :: 'x' :: c :: cs => digitsValue 16 0 (c :: cs)
  | c :: cs => digitsValue 10 0 (c :: cs)

/-- A number below a bound. -/
def parseBounded (bound : Nat) (l : List Char) : Except AsmError Nat :=
  match parseNumber l with
  | some n => if n < bound then .ok n else .error (.badNumber l)
  | none => .error (.badNumber l)

/-- A hex string of whole bytes (R91). -/
def hexBytes : List Char → Option (List Byte)
  | [] => some []
  | [_] => none
  | h :: l :: cs =>
    match hexDigit h, hexDigit l, hexBytes cs with
    | some a, some b, some bs => some (BitVec.ofNat 8 (16 * a + b) :: bs)
    | _, _, _ => none

/-- The bytes of a hex string, or the rejection. -/
def parseBytes (l : List Char) : Except AsmError (List Byte) :=
  match hexBytes l with
  | some bs => .ok bs
  | none => .error (.badHex l)

/-- The block of a hex string of 16 bytes. -/
def parseBlock (l : List Char) : Except AsmError Block :=
  match hexBytes l with
  | some bs => if bs.length = 16 then .ok (blockOfBytes bs) else .error (.badHex l)
  | none => .error (.badHex l)

/-- The register names of R51 that stand for an address, with the address and whether R90 lets `+` follow. -/
def registerNames : List (List Char × Nat × Bool) :=
  [("CMD".toList, 0x0, false), ("STATUS".toList, 0x1, false), ("IN_LEN".toList, 0x4, true),
   ("OUT_LEN".toList, 0x8, true), ("KEYLEN".toList, 0xC, false), ("ROUND".toList, 0xD, false),
   ("OPA".toList, 0xE, false), ("OPB".toList, 0xF, false), ("RES".toList, 0x10, false),
   ("KEY".toList, 0x20, true), ("STATE".toList, 0x30, true), ("RK".toList, 0x100, true),
   ("SBOX".toList, 0x200, true), ("INV_SBOX".toList, 0x300, true), ("RCON".toList, 0x400, true),
   ("IN_BUF".toList, 0x100000, true), ("OUT_BUF".toList, 0x200000, true)]

/-- The address of a name, or of a name with an offset, `none` where R90 gives none. -/
def namedAddress (name offset : List Char) : Option Nat :=
  match registerNames.lookup name with
  | none => none
  | some (base, indexed) =>
    match offset with
    | [] => some base
    | '+' :: ds => if indexed then (parseNumber ds).map (base + ·) else none
    | _ => none

/-- An address operand (R90): a number, a name, or a name with an offset. -/
def parseAddress (l : List Char) : Except AsmError Addr :=
  let name := l.takeWhile (· != '+')
  let value :=
    match parseNumber l with
    | some n => some n
    | none => namedAddress name (l.drop name.length)
  match value with
  | some n => if n < 2 ^ 32 then .ok (BitVec.ofNat 32 n) else .error (.badAddress l)
  | none => .error (.badAddress l)

/-- The mnemonics of R82. -/
def mnemonics : List (List Char × Instr) :=
  [("GFMUL".toList, .gfmul), ("KEYEXP".toList, .keyexp), ("SUBB".toList, .subb), ("ISUBB".toList, .isubb),
   ("SHR".toList, .shr), ("ISHR".toList, .ishr), ("MIXC".toList, .mixc), ("IMIXC".toList, .imixc),
   ("ARK".toList, .ark), ("ENCB".toList, .encb), ("DECB".toList, .decb), ("CBCE".toList, .cbce),
   ("CBCD".toList, .cbcd)]

/-- A pseudo-instruction as a line, rejected when its byte range leaves the address space. -/
def pseudoLine (p : Pseudo) : Except AsmError (Option HostLine) :=
  if p.wellFormed then .ok (some (.pseudo p)) else .error .badRange

/-- A line of two tokens: the head and its only operand. -/
def parseUnary (head operand : List Char) : Except AsmError (Option HostLine) :=
  if head = "RD".toList then (parseAddress operand).map fun a => some (.transaction (.rd a))
  else if head = "CMD".toList then
    match mnemonics.lookup operand with
    | some m => .ok (some (.pseudo (.cmd m)))
    | none => .error (.badMnemonic operand)
  else if head = "LDKEY".toList then (parseBlock operand).map fun h => some (.pseudo (.ldkey h))
  else if head = "LDSTATE".toList then (parseBlock operand).map fun h => some (.pseudo (.ldstate h))
  else if head = "LDIN".toList then (parseBytes operand).bind fun h => pseudoLine (.ldin h)
  else if head = "SETLEN".toList then
    (parseBounded (2 ^ 32) operand).map fun n => some (.pseudo (.setlen (BitVec.ofNat 32 n)))
  else .error .badLine

/-- A line `head a, x`. -/
def parseBinary (head first second : List Char) : Except AsmError (Option HostLine) :=
  (parseAddress first).bind fun a =>
    if head = "WR".toList then
      (parseBounded (2 ^ 8) second).map fun v => some (.transaction (.wr a (BitVec.ofNat 8 v)))
    else if head = "WRN".toList then (parseBytes second).bind fun h => pseudoLine (.wrn a h)
    else if head = "RDN".toList then (parseBounded (2 ^ 32 + 1) second).bind fun n => pseudoLine (.rdn a n)
    else .error .badLine

/-- The line that a token sequence spells. The `-> v` after `RD addr` is for the reader (R90). -/
def parseTokens : List Token → Except AsmError (Option HostLine)
  | [] => .ok none
  | [.word h] => if h = "RDSTATUS".toList then .ok (some (.pseudo .rdstatus)) else .error .badLine
  | [.word h, .word x] => parseUnary h x
  | [.word h, .word x, .arrow, .word _] => if h = "RD".toList then parseUnary h x else .error .badLine
  | [.word h, .word x, .comma, .word y] => parseBinary h x y
  | _ => .error .badLine

/-- One line of host assembly. -/
def assembleLine (line : List Char) : Except AsmError (Option HostLine) := parseTokens (lexLine [] line)

/-- A host program from its lines; the first rejected line rejects the program. -/
def assemble : List (List Char) → Except AsmError (List HostLine)
  | [] => .ok []
  | l :: ls =>
    match assembleLine l with
    | .error e => .error e
    | .ok x => (assemble ls).map fun rest => x.toList ++ rest

end Sys2Proof.Machine
end

