-- ==== Sys2Proof/Tests/Slice0.lean ====
section
/-! SUPPORT. Tests: expected values are the vectors of spec/95_test_vectors.md (V-…) and the words of
spec/30_encoding.md; then, for every obligation with hypotheses, a state and operands that meet them. -/

namespace Sys2Proof.Tests
open Sys2Proof.Machine

/-- The block of a 32-digit hex number, most significant byte first (R10). -/
def blk (n : Nat) : Block := blockOf fun k => BitVec.ofNat 8 (n >>> (8 * (15 - k)))

/-- The bytes of a number, most significant first. -/
def bytesOf (len n : Nat) : List Byte := (List.range len).map fun k => BitVec.ofNat 8 (n >>> (8 * (len - 1 - k)))

def fipsKey : Block := blk 0x2b7e151628aed2a6abf7158809cf4f3c

def countIv : Block := blk 0x000102030405060708090a0b0c0d0e0f

/-- IN_CAP = 256, the FIPS key declared and expanded, the counting IV as the RNG's next answer. -/
def sample : State :=
  { State.reset with
    inCap := ⟨14⟩, key := fipsKey, keyLen := 0x10, rk := expand fipsKey, schedValid := true, rngScript := [some countIv] }

/-- `sample` with a message in IN_BUF. -/
def withMessage (l : List Byte) : State :=
  { sample with inBuf := Memory.writeBytes [] 0 l, inLen := BitVec.ofNat 32 l.length }

/-- `sample` with STATE. -/
def withState (n : Nat) : State := { sample with state := blk n }

def nextOf : Host.Outcome State Fault Refusal → Option State
  | .next t => some t
  | .fault _ => none
  | .refused _ => none

def stateAfter (i : Instr) (s : State) : Option Block := (nextOf (exec i s)).map (·.state)

def errAfter (i : Instr) (s : State) : Option ErrCode := (nextOf (exec i s)).map (·.err)

/-- OUT_BUF[0..OUT_LEN) after a command. -/
def outputAfter (i : Instr) (s : State) : Option (List Byte) :=
  (nextOf (exec i s)).map fun t => (List.range t.outLen.toNat).map (outBufByte t)

/-! ### Well-formedness: each check refuses an ill-formed term -/

theorem test_word_reserved_bit41_refused : wordWellFormed 0x020000000000 = false := by decide
theorem test_word_reserved_bit47_refused : wordWellFormed 0x800000000000 = false := by decide
theorem test_word_read_with_data_refused : wordWellFormed 0x000000000001 = false := by decide
theorem test_word_write_admitted : wordWellFormed 0x01ffffffffff = true := by decide
theorem test_capacity_below_refused : capacityLegal 16 = false := by decide
theorem test_capacity_odd_refused : capacityLegal 33 = false := by decide
theorem test_capacity_above_refused : capacityLegal 0xFFFF0 = false := by decide
theorem test_capacity_bounds_admitted : capacityLegal 32 = true ∧ capacityLegal 0xFFFE0 = true := by decide
theorem test_pseudo_cmd_of_rd_refused : (Pseudo.cmd (.rd 0)).wellFormed = false := by decide
theorem test_pseudo_range_refused : (Pseudo.wrn 0xFFFFFFFF [0, 0]).wellFormed = false := by decide
/-- The longest LDIN ends at the last address (log 21). -/
theorem test_pseudo_ldin_range (h : List Byte) : (Pseudo.ldin h).wellFormed = true ↔ h.length ≤ 0xFFF00000 := by
  simp only [Pseudo.wellFormed, decide_eq_true_eq]; omega

/-! ### Decoding: the fields of R81 and R82 written out, and the words of V-ENC-1 -/

theorem test_decode_gfmul : decodeTableWord 8 0b00000010 = some .gfmul := by decide
theorem test_decode_keyexp : decodeTableWord 8 0b00010000 = some .keyexp := by decide
theorem test_decode_subb : decodeTableWord 8 0b00100000 = some .subb := by decide
theorem test_decode_isubb : decodeTableWord 8 0b00100001 = some .isubb := by decide
theorem test_decode_shr : decodeTableWord 8 0b00100010 = some .shr := by decide
theorem test_decode_ishr : decodeTableWord 8 0b00100011 = some .ishr := by decide
theorem test_decode_mixc : decodeTableWord 8 0b00100100 = some .mixc := by decide
theorem test_decode_imixc : decodeTableWord 8 0b00100101 = some .imixc := by decide
theorem test_decode_ark : decodeTableWord 8 0b00100110 = some .ark := by decide
theorem test_decode_encb : decodeTableWord 8 0b00110000 = some .encb := by decide
theorem test_decode_decb : decodeTableWord 8 0b00110001 = some .decb := by decide
theorem test_decode_cbce : decodeTableWord 8 0b01000000 = some .cbce := by decide
theorem test_decode_cbcd : decodeTableWord 8 0b01000001 = some .cbcd := by decide
theorem test_decode_rd : decodeTableWord 48 0x000020000000 = some (.rd 0x00200000) := by decide
theorem test_decode_wr : decodeTableWord 48 0x01000000202b = some (.wr 0x00000020 0x2B) := by decide
theorem test_decode_refusals : decodeTransaction 0x000000000001 = .error (.readWithData 0x000000000001) ∧
    decodeTransaction 0x020000000000 = .error (.reservedBits 0x020000000000) ∧
    decodeTransaction 0x800000000000 = .error (.reservedBits 0x800000000000) := by decide
theorem test_decode_illegal_bytes : ∀ v ∈ [0x00#8, 0x01, 0x03, 0x0F, 0x11, 0x27, 0x28, 0x32, 0x42, 0x50, 0xFF],
    decodeCommand v = .error (.illegalCommand v) := by decide

/-! ### One step of each instruction -/

/-- V-GF-1, V-GF-7. -/
theorem test_gfmul : (nextOf (exec .gfmul { sample with opa := 0x57, opb := 0x13 })).map (·.res) = some 0xFE ∧
    (nextOf (exec .gfmul { sample with opa := 0x80, opb := 0x02 })).map (·.res) = some 0x1B := by decide

/-- V-KS-1. -/
theorem test_keyexp : (nextOf (exec .keyexp { sample with rk := State.reset.rk, schedValid := false })).map
    (fun t => (roundKey t.rk 1, roundKey t.rk 10, t.schedValid)) =
    some (blk 0xa0fafe1788542cb123a339392a6c7605, blk 0xd014f9a8c9ee2589e13f0cc8b6630ca6, true) := by decide

/-- V-KS-5. -/
theorem test_keyexp_keylen : ∀ v ∈ [0x00#8, 0x0F, 0x11, 0x20, 0xFF],
    errAfter .keyexp { sample with keyLen := v } = some .invalidKeyLength := by decide

/-- V-RT-1. -/
theorem test_subb : stateAfter .subb (withState 0x193de3bea0f4e22b9ac68d2ae9f84808) =
    some (blk 0xd42711aee0bf98f1b8b45de51e415230) := by decide

/-- V-RT-8. -/
theorem test_isubb : stateAfter .isubb (withState 0x193de3bea0f4e22b9ac68d2ae9f84808) =
    some (blk 0x8e8b4d5a47ba3b0b37c7b495ebe1d4bf) := by decide

/-- V-RT-16. -/
theorem test_shr : stateAfter .shr (withState 0x000102030405060708090a0b0c0d0e0f) =
    some (blk 0x00050a0f04090e03080d02070c01060b) := by decide

/-- V-RT-23. -/
theorem test_ishr : stateAfter .ishr (withState 0x000102030405060708090a0b0c0d0e0f) =
    some (blk 0x000d0a0704010e0b0805020f0c090603) := by decide

/-- V-RT-35. -/
theorem test_mixc : stateAfter .mixc (withState 0xdb135345f20a225cd4d4d4d52d26314c) =
    some (blk 0x8e4da1bc9fdc589dd5d5d7d64d7ebdf8) := by decide

/-- V-RT-36: tells the canonical matrix from the 0x0b variant of C2. -/
theorem test_imixc : stateAfter .imixc (withState 0x193de3bea0f4e22b9ac68d2ae9f84808) =
    some (blk 0x083c004d0290616e1cafe6ae968195d3) := by decide

/-- V-RT-44. -/
theorem test_ark : stateAfter .ark { withState 0x046681e5e0cb199a48f8d37a2806264c with round := 1 } =
    some (blk 0xa49c7ff2689f352b6b5bea43026a5049) := by decide

/-- R136: ROUND = 10 is legal, 11 is not, and NO_SCHEDULE comes first. -/
theorem test_ark_errors : errAfter .ark { sample with round := 10 } = some .ok ∧
    errAfter .ark { sample with round := 11 } = some .badOperand ∧
    errAfter .ark { sample with round := 11, schedValid := false } = some .noSchedule := by decide

set_option maxRecDepth 100000 in
/-- V-BLK-1. -/
theorem test_encb : stateAfter .encb (withState 0x3243f6a8885a308d313198a2e0370734) =
    some (blk 0x3925841d02dc09fbdc118597196a0b32) := by decide

set_option maxRecDepth 100000 in
/-- V-BLK-2. -/
theorem test_decb : stateAfter .decb (withState 0x3925841d02dc09fbdc118597196a0b32) =
    some (blk 0x3243f6a8885a308d313198a2e0370734) := by decide

set_option maxRecDepth 100000 in
/-- V-CBC-1: the empty message. -/
theorem test_cbce_empty : outputAfter .cbce (withMessage []) =
    some (bytesOf 32 0x000102030405060708090a0b0c0d0e0fc84af0b613435d5d9182801a9bd9320b) := by decide

set_option maxRecDepth 100000 in
/-- V-CBC-4. -/
theorem test_cbce : outputAfter .cbce (withMessage (bytesOf 16 0x6bc1bee22e409f96e93d7e117393172a)) =
    some (bytesOf 48
      0x000102030405060708090a0b0c0d0e0f7649abac8119b246cee98e9b12e9197d8964e0b149c10b7b682e6e39aaeb731c) := by decide

set_option maxRecDepth 100000 in
/-- V-CBCD-3. -/
theorem test_cbcd : outputAfter .cbcd (withMessage (bytesOf 32
      0x000102030405060708090a0b0c0d0e0f55ddfb4554ff5c2ec6607fb3baa7fccc)) =
    some (bytesOf 13 0x6bc1bee22e409f96e93d7e1173) := by decide

set_option maxRecDepth 100000 in
/-- V-CBCD-7: a correct last byte, an earlier padding byte wrong. -/
theorem test_cbcd_padding : (nextOf (exec .cbcd (withMessage (bytesOf 32
      0x000102030405060708090a0b0c0d0e0fbf6287a4736efa1bd43db3551f74f724)))).map
        (fun t => (t.err, t.cbcst, t.outLen, statusByte t)) = some (.paddingInvalid, .rejected, 0, 0x73) := by decide

/-- V-ROM-4, V-ROM-15, V-ROM-26, V-ROM-27 and rows of V-BUS-1. -/
theorem test_rd : hostRead sample 0x253 = some 0xED ∧ hostRead sample 0x3ED = some 0x53 ∧
    hostRead sample 0x409 = some 0x36 ∧ hostRead sample 0x40A = none ∧ hostRead sample 0x2 = none ∧
    hostRead sample 0x1AF = some 0xA6 ∧ hostRead sample 0x1B0 = none ∧ hostRead sample 0x20011F = some 0x00 ∧
    hostRead sample 0x200120 = none ∧ hostRead sample 0x100100 = none ∧ hostRead sample 0xFFFFFFFF = none := by decide

/-- V-KS-7: a KEY byte rewritten with its own value clears SCHED_VALID; V-ERR-1: an illegal byte; V-BUS-1: read-only. -/
theorem test_wr : (nextOf (exec (.wr 0x20 0x2B) sample)).map (fun t => (t.key, t.schedValid)) = some (fipsKey, false) ∧
    (nextOf (exec (.wr 0x0 0x27) sample)).map (fun t => (t.cmd, statusByte t)) = some (0x27, 0x44) ∧
    exec (.wr 0x1 0x00) sample = .fault (.busError 0x1) ∧
    (nextOf (exec (.wr 0x5 0xAB) sample)).map (·.inLen) = some 0xAB00 := ⟨by decide, by decide, rfl, by decide⟩

/-! ### Steps, the assembler and a program -/

/-- R91: `CMD m` runs the command. -/
theorem test_step_command : (nextOf (step ((withState 0x000102030405060708090a0b0c0d0e0f).withFetchWord 8 0x22))).map
    (fun t => (t.state, t.cmd)) = some (blk 0x00050a0f04090e03080d02070c01060b, 0x22) := by decide

/-- R191's example, as the first instruction after reset. -/
theorem test_step_rd : (nextOf (step (State.reset.withFetchWord 48 0x000000020000))).map (·.lastRead) =
    some (some 0x63) := by decide

/-- R89: a word that spells no transaction is refused. -/
theorem test_step_refuses : step (State.reset.withFetchWord 48 0x020000000000) =
    .refused (.notATransaction 0x020000000000) := rfl

/-- R90: a name with an offset, a comment, and a register name that takes no offset. -/
theorem test_assemble_line : assembleLine "WR KEY+3, 0x2B ; note".toList = .ok (some (.transaction (.wr 0x23 0x2B))) ∧
    assembleLine "RD STATUS -> 0x40".toList = .ok (some (.transaction (.rd 0x1))) ∧
    assembleLine "WR KEYLEN+1, 16".toList = .error (.badAddress "KEYLEN+1".toList) := by decide

/-- R91: the words of two pseudo-instructions (the programs P1 and P2 of spec/95_test_vectors.md print them). -/
theorem test_program_words :
    (assemble ["CMD KEYEXP".toList, "RDN RK+160, 2".toList, "SETLEN 257".toList]).map programWords =
      .ok [0x010000000010, 0x00000001a000, 0x00000001a100, 0x010000000401, 0x010000000501, 0x010000000600,
        0x010000000700] := by decide

/-! ### Witnesses: for each obligation with hypotheses, values that meet them, clause by clause, at the bounds of their
ranges. They show that the hypotheses can hold; the conclusions are the provers'. -/

/-- KEYLEN not 16, the schedule stale. -/
def undeclared : State := { sample with keyLen := 0x0F, schedValid := false }

/-- IN_LEN = 257, one above IN_CAP. -/
def tooLong : State := { sample with inLen := 257 }

/-- The RNG does not answer the next poll, and answers the one after it. -/
def slowRng : State := { sample with rngScript := [none, some countIv] }

/-- A CBCE that waits for the RNG. -/
def waiting : State := { sample with cbcst := .chaining, rngPending := true, rngRequests := 1 }

/-- A valid stream of one block (V-CBCD-3: P = 3) and one with a wrong padding byte (V-CBCD-7). -/
def goodStream : State := withMessage (bytesOf 32 0x000102030405060708090a0b0c0d0e0f55ddfb4554ff5c2ec6607fb3baa7fccc)
def badStream : State := withMessage (bytesOf 32 0x000102030405060708090a0b0c0d0e0fbf6287a4736efa1bd43db3551f74f724)

/-- The host's list is these words. -/
def sending (s : State) (ws : List HostInput) : State := { s with inputs := ws }

theorem witness_SboxIsAffineOfInverse : gmul 0x53 0xCA = 0x01 ∧ ((0x00 : Byte) = 0x00) := by decide

theorem witness_ExpandFollowsRecurrence : (9 < 10 ∧ 3 < 4 ∧ 1 ≤ 3) ∧ rcon 9 = 0x36 := by decide

theorem witness_KeyexpExpandsOrRejects : sample.keyLen = 0x10 ∧ undeclared.keyLen ≠ 0x10 := by decide

theorem witness_ExpansionDependsOnKeyAlone : sample.key = badStream.key ∧
    (nextOf (exec .keyexp sample)).map (fun t => (t.rngPending, t.err)) = some (false, .ok) ∧
    (nextOf (exec .cbce sample)).map (fun t => (t.rngPending, t.err)) = some (false, .ok) := by decide

theorem witness_GmulFieldLaws : (0x53 : Byte) ≠ 0x00 ∧ gmul 0x53 0xCA = 0x01 := by decide

theorem witness_RomTablesAgree : 8 < 9 ∧ gmul (rcon 8) 0x02 = 0x36 := by decide

theorem witness_ResetValues : 15 < 16 ∧ 10 < 11 ∧ 9 < 10 := by decide

theorem witness_SubBytesCommands : 15 < 16 ∧ blockByte countIv 15 = 0x0F := by decide

theorem witness_ShiftRowsCommands : (3 < 4 ∧ (3 + 3) % 4 = 2) ∧ (0 < 4 ∧ (0 + 4 - 0) % 4 = 0) := by decide

theorem witness_MixColumnsCommands : (3 < 4 ∧ 4 * 3 + (3 + 3) % 4 = 14) ∧ 0 < 4 := by decide

theorem witness_ArkXorsRoundKey : undeclared.schedValid = false ∧
    (sample.schedValid = true ∧ 10 < ({ sample with round := 11 } : State).round.toNat) ∧
    ({ sample with round := 10 } : State).round.toNat ≤ 10 := by decide

theorem witness_EncbRunsTenRounds : sample.schedValid = true ∧ undeclared.schedValid = false ∧ (1 ≤ 9 ∧ 9 ≤ 9) := by decide

theorem witness_DecbRunsInverseRounds : sample.schedValid = true ∧ undeclared.schedValid = false := by decide

theorem witness_EncbAndDecbAreInverse : sample.schedValid = true ∧ (∃ t, exec .encb sample = .next t) ∧
    ∃ t, exec .decb sample = .next t := ⟨rfl, ⟨_, rfl⟩, ⟨_, rfl⟩⟩

/-- With IN_LEN = 0, 15 and IN_CAP. -/
theorem witness_CbceWritesStream : inCapBytes tooLong.inCap < tooLong.inLen.toNat ∧
    (undeclared.inLen.toNat ≤ inCapBytes undeclared.inCap ∧ undeclared.keyLen ≠ 0x10) ∧
    (sample.keyLen = 0x10 ∧ (rngPoll sample).1 = some countIv ∧ sample.inLen.toNat = 0) ∧
    ({ sample with inLen := 256 } : State).inLen.toNat ≤ inCapBytes sample.inCap ∧ 16 < 256 / 16 + 1 := by decide

/-- The waiting state meets the invariant with every legal IN_LEN, 0 and IN_CAP = 256 among them. -/
theorem waiting_inv (n : Count) (h : n.toNat ≤ 256) : Inv { waiting with inLen := n } where
  schedule _ := ⟨rfl, rfl⟩
  chaining := ⟨fun _ => rfl, fun _ => rfl⟩
  accepted _ := ⟨rfl, h⟩
  inBufWf := .nil
  inBufWithin := by intro c hc; cases hc
  outBufWf := .nil
  outBufWithin := by intro c hc; cases hc
  outLenFits := Nat.zero_le _
  outLenWritten := by intro j hj; cases hj

theorem witness_CbceWaitsForRng :
    (slowRng.inLen.toNat ≤ inCapBytes slowRng.inCap ∧ slowRng.keyLen = 0x10 ∧ (rngPoll slowRng).1 = none) ∧
    waiting.rngPending = true ∧ (rngPoll waiting).1 = some countIv ∧
    (rngPoll { waiting with rngScript := [none] }).1 = none ∧
    Inv { waiting with inLen := 0 } ∧ Inv { waiting with inLen := 256 } ∧
    (rngPoll { waiting with inLen := 256 }).1 = some countIv ∧ 15 < 256 / 16 + 1 :=
  ⟨by decide, rfl, rfl, rfl, waiting_inv 0 (by decide), waiting_inv 256 (by decide), rfl, by decide⟩

theorem witness_CbceCompletesWhenRngAnswers :
    slowRng.rngPending = false ∧ (sending slowRng [.word (commandWord 0x40)]).inputs = .word (commandWord 0x40) :: [] ∧
    slowRng.inLen.toNat ≤ inCapBytes slowRng.inCap ∧ slowRng.keyLen = 0x10 ∧
    slowRng.rngScript = List.replicate 1 none ++ some countIv :: [] ∧
    ∃ t, step { sending slowRng [.word (commandWord 0x40)] with rngScript := [some countIv] } = .next t :=
  ⟨rfl, rfl, by decide, rfl, rfl, ⟨_, rfl⟩⟩

set_option maxRecDepth 100000 in
/-- The last byte of p is 3 in `goodStream`, and 3 with a wrong byte before it in `badStream`. -/
theorem witness_CbcdRecoversPlaintext : inCapBytes tooLong.inCap < tooLong.inLen.toNat ∧
    (undeclared.inLen.toNat ≤ inCapBytes undeclared.inCap ∧ undeclared.keyLen ≠ 0x10) ∧
    ((31 : Nat) < 32 ∧ (33 - 16) % 16 ≠ 0) ∧
    (goodStream.inLen.toNat ≤ inCapBytes goodStream.inCap ∧ goodStream.keyLen = 0x10 ∧ goodStream.inLen.toNat = 32) ∧
    (cbcdRecovered goodStream).drop 13 = [3, 3, 3] ∧ (cbcdRecovered badStream).drop 13 = [2, 3, 3] := by decide

theorem witness_CbcdRejectsBadLength :
    (({ sample with inLen := 31 } : State).inLen.toNat < 32 ∧ ({ sample with inLen := 47 } : State).inLen.toNat % 16 ≠ 0) ∧
    31 ≤ inCapBytes sample.inCap ∧ 47 ≤ inCapBytes sample.inCap ∧ sample.keyLen = 0x10 := by decide

set_option maxRecDepth 100000 in
theorem witness_FailedCbcHidesOutput :
    (nextOf (exec .cbcd badStream)).map (fun t => (t.rngPending, t.err)) = some (false, .paddingInvalid) ∧
    (nextOf (exec .cbce undeclared)).map (fun t => (t.rngPending, t.err)) = some (false, .invalidKeyLength) ∧
    (0x200000 ≤ (0x20011F#32).toNat ∧ (0x20011F#32).toNat < 0x200000 + outCapBytes badStream.inCap) := by decide

set_option maxRecDepth 100000 in
/-- The copy of OUT_BUF into IN_BUF that R169 asks for, of the empty message. -/
theorem witness_CbcRoundTrip : sample.inLen.toNat + 32 ≤ inCapBytes sample.inCap ∧ sample.keyLen = 0x10 ∧
    (rngPoll sample).1 = some countIv ∧
    (nextOf (exec .cbce sample)).map (fun t =>
      let s' := { t with inBuf := t.outBuf, inLen := t.outLen }
      (s'.key == t.key && s'.keyLen == t.keyLen && s'.inCap == t.inCap && s'.inLen == t.outLen &&
        (List.range t.outLen.toNat).all fun j => inBufByte s' j == outBufByte t j)) = some true := by decide

set_option maxRecDepth 100000 in
theorem witness_CbcOutputLengths :
    (nextOf (exec .cbce sample)).map (fun t => (t.rngPending, t.err)) = some (false, .ok) ∧
    errAfter .cbcd goodStream = some .ok := by decide

theorem witness_TamperedChainFlipsPlaintext : goodStream.inLen.toNat = 32 ∧ goodStream.inLen.toNat % 16 = 0 ∧ 15 < 16 := by
  decide

set_option maxRecDepth 100000 in
/-- Each end of R168, from a state with no request outstanding. -/
theorem witness_CbcStateMachine : sample.rngPending = false ∧ runsCbc .gfmul = false ∧ runsCbc (.wr 0x0 0x41) = true ∧
    (nextOf (exec .gfmul sample)).isSome = true ∧
    (nextOf (exec .cbce slowRng)).map (·.cbcst) = some .chaining ∧
    (nextOf (exec .cbce tooLong)).map (·.cbcst) = some .idle ∧
    (nextOf (exec (.wr 0x0 0x41) goodStream)).map (·.cbcst) = some .done ∧
    (nextOf (exec .cbcd badStream)).map (·.cbcst) = some .rejected := by decide

/-- One address of every clause, at its upper bound. -/
theorem witness_RdReturnsMappedByte : hostRead sample 0x0 = some 0x00 ∧ hostRead sample 0x1 = some 0x40 ∧
    hostRead { sample with inLen := 0x04030201 } 0x7 = some 0x04 ∧
    hostRead { sample with outLen := 0x04030201 } 0xB = some 0x04 ∧ hostRead sample 0xC = some 0x10 ∧
    hostRead { sample with round := 5 } 0xD = some 5 ∧ hostRead { sample with opa := 6 } 0xE = some 6 ∧
    hostRead { sample with opb := 7 } 0xF = some 7 ∧ hostRead { sample with res := 8 } 0x10 = some 8 ∧
    hostRead sample 0x2F = some 0x3C ∧ hostRead (withState 0x3C) 0x3F = some 0x3C ∧
    hostRead sample 0x1AF = some 0xA6 ∧ hostRead sample 0x2FF = some 0x16 ∧ hostRead sample 0x3FF = some 0x7D ∧
    hostRead sample 0x409 = some 0x36 ∧
    hostRead { sample with inBuf := [(255, 0x99)] } 0x1000FF = some 0x99 ∧
    hostRead { sample with outBuf := [(287, 0x77)], outLen := 288 } 0x20011F = some 0x77 ∧
    hostRead { sample with outBuf := [(287, 0x77)], outLen := 287 } 0x20011F = some 0x00 := by decide

/-- The bounds of the map and of its writable part, from both sides, with IN_CAP = 256. -/
theorem witness_BusErrorExactlyOffTheMap :
    (∀ n ∈ [0x0, 0x1, 0x4, 0x10, 0x20, 0x3F, 0x100, 0x1AF, 0x200, 0x409, 0x100000, 0x1000FF, 0x200000, 0x20011F],
      mappedAddr sample.inCap n) ∧
    (∀ n ∈ [0x2, 0x3, 0x11, 0x1F, 0x40, 0xFF, 0x1B0, 0x1FF, 0x40A, 0xFFFFF, 0x100100, 0x1FFFFF, 0x200120, 0xFFFFFFFF],
      ¬ mappedAddr sample.inCap n) ∧
    (∀ n ∈ [0x0, 0x4, 0x7, 0xC, 0xF, 0x20, 0x3F, 0x100000, 0x1000FF], writableAddr sample.inCap n) ∧
    (∀ n ∈ [0x1, 0x3, 0x8, 0xB, 0x10, 0x1F, 0x40, 0x100, 0x1AF, 0x200, 0x409, 0xFFFFF, 0x100100, 0x200000, 0xFFFFFFFF],
      ¬ writableAddr sample.inCap n) := by
  unfold mappedAddr writableAddr
  decide

/-- The bounds of each clause's range. -/
theorem witness_WrStoresByte : (¬ writableAddr sample.inCap 0x1 ∧ ¬ writableAddr sample.inCap 0x100100) ∧
    ((0x0#32).toNat = 0x0 ∧ decodeCommand 0x41 = .ok .cbcd ∧ decodeCommand 0x42 = .error (.illegalCommand 0x42)) ∧
    ((0x4#32).toNat = 0x4 + 0 ∧ (0x7#32).toNat = 0x4 + 3) ∧
    ((0xC#32).toNat = 0xC ∧ (0xD#32).toNat = 0xD ∧ (0xE#32).toNat = 0xE ∧ (0xF#32).toNat = 0xF) ∧
    ((0x20#32).toNat = 0x20 + 0 ∧ (0x2F#32).toNat = 0x20 + 15) ∧ ((0x30#32).toNat = 0x30 + 0 ∧ (0x3F#32).toNat = 0x30 + 15) ∧
    ((0x1000FF#32).toNat = 0x100000 + 255 ∧ 255 < inCapBytes sample.inCap) := by
  unfold writableAddr
  decide

theorem witness_ReadReturnsLatestWrite : (∃ t, exec (.wr 0x0 0xFF) sample = .next t) ∧
    (∃ t, exec (.wr 0x20 0x00) sample = .next t) ∧ (0x20 : Addr) ≠ cmdAddr ∧ (0x21 : Addr) ≠ 0x20 ∧ (0x21 : Addr) ≠ 0x1 :=
  ⟨⟨_, rfl⟩, ⟨_, rfl⟩, by decide⟩

theorem witness_CmdWriteRunsCommand : decodeCommand 0x24 = .ok .mixc ∧
    decodeCommand 0x27 = .error (.illegalCommand 0x27) := by decide

theorem witness_IllegalCommandEffect : ∀ v ∈ [0x00#8, 0x03, 0x11, 0x27, 0x42, 0xFF],
    v ∉ [0x02#8, 0x10#8, 0x20#8, 0x21#8, 0x22#8, 0x23#8, 0x24#8, 0x25#8, 0x26#8, 0x30#8, 0x31#8, 0x40#8, 0x41#8] := by decide

/-- The reset state with a capacity, an idle state that meets the invariant. -/
theorem reset_inv (cap : InCap) : Inv { State.reset with inCap := cap } := by
  refine ⟨by simp [State.reset], by simp [State.reset], by simp [State.reset], ?_, ?_, ?_, ?_, ?_, ?_⟩ <;>
    simp [State.reset, Memory.wf, Memory.within]

theorem witness_HostNeverReadsChaining : ∃ t, Inv { State.reset with inCap := ⟨14⟩ } ∧ State.reset.rngPending = false ∧
    exec (.rd 0x1) { State.reset with inCap := ⟨14⟩ } = .next t ∧ t.lastRead = some 0x00 :=
  ⟨_, reset_inv _, rfl, rfl, by decide⟩

/-- A rise by KEYEXP, a rise by the CMD write, and a fall by KEYLEN and by the last KEY byte. -/
theorem witness_SchedValidEvents : sample.schedValid = true ∧
    (nextOf (exec .keyexp { sample with schedValid := false })).map (·.schedValid) = some true ∧
    (nextOf (exec (.wr 0x0 0x10) { sample with schedValid := false })).map (·.schedValid) = some true ∧
    (nextOf (exec (.wr 0xC 0x10) sample)).map (·.schedValid) = some false ∧
    (nextOf (exec (.wr 0x2F 0x3C) sample)).map (·.schedValid) = some false := by decide

theorem witness_RkWrittenOnlyByExpansion : (∃ t, exec .gfmul sample = .next t) ∧ ∃ t, exec .keyexp sample = .next t :=
  ⟨⟨_, rfl⟩, ⟨_, rfl⟩⟩

theorem witness_CommandsKeepOperands : isCommand .cbcd = true ∧ ∃ t, exec .cbcd sample = .next t := ⟨rfl, ⟨_, rfl⟩⟩

theorem witness_StateCommandsFrame : (∃ t, exec .ark sample = .next t) ∧ (0x2F : Addr) ≠ 0x1 ∧
    ¬(0x30 ≤ (0x2F : Addr).toNat ∧ (0x2F : Addr).toNat < 0x40) ∧
    ¬(0x30 ≤ (0x40 : Addr).toNat ∧ (0x40 : Addr).toNat < 0x40) := ⟨⟨_, rfl⟩, by decide⟩

theorem witness_CbcIgnoresBlockRegisters : (∃ t, exec .cbce sample = .next t) ∧ ∃ t, exec .cbcd sample = .next t :=
  ⟨⟨_, rfl⟩, ⟨_, rfl⟩⟩

theorem witness_FailingCommandChangesOnlyErr : isCommand .encb = true ∧ runsCbc .encb = false ∧
    errAfter .encb undeclared = some .noSchedule ∧ errAfter .keyexp undeclared = some .invalidKeyLength ∧
    errAfter .ark { sample with round := 11 } = some .badOperand := by decide

/-- Every command completes in `sample`, CBCE without waiting, and an illegal byte is illegal. -/
theorem witness_ErrorPrecedence :
    (∀ i ∈ [Instr.gfmul, .subb, .isubb, .shr, .ishr, .mixc, .imixc, .keyexp, .ark, .encb, .decb, .cbcd],
      (nextOf (exec i sample)).isSome = true) ∧
    (nextOf (exec .cbce sample)).map (·.cbcst) = some .done ∧
    decodeCommand 0x27 = .error (.illegalCommand 0x27) ∧ (nextOf (exec (.wr cmdAddr 0x27) sample)).isSome = true := by decide

theorem witness_KeyChangeMakesScheduleStale : ((0xC : Addr).toNat = 0xC ∧ ∃ t, exec (.wr 0xC 0x10) sample = .next t) ∧
    ((0x20 ≤ (0x2F : Addr).toNat ∧ (0x2F : Addr).toNat < 0x30) ∧ ∃ t, exec (.wr 0x2F 0x3C) sample = .next t) ∧
    undeclared.schedValid = false ∧
    (nextOf (exec .keyexp { sample with schedValid := false })).map (·.schedValid) = some true :=
  ⟨⟨rfl, ⟨_, rfl⟩⟩, ⟨by decide, ⟨_, rfl⟩⟩, rfl, by decide⟩

theorem witness_RngRequestsOnlyByCbce : (nextOf (exec .cbce slowRng)).map (·.rngRequests) = some 1 ∧
    (nextOf (exec .encb sample)).map (·.rngRequests) = some 0 := by decide

theorem witness_StepPerformsTransaction : sample.rngPending = false ∧
    (sending sample [.word 0x000000000100]).inputs = .word 0x000000000100 :: [] ∧
    decodeTransaction 0x000000000100 = .ok (.rd 0x00000001) ∧
    decodeTransaction 0x020000000000 = .error (.reservedBits 0x020000000000) ∧ sample.inputs = [] := by decide

theorem witness_ResetEvent : (sending sample [.reset]).rngPending = false ∧
    (sending sample [.reset]).inputs = .reset :: [] := by decide

theorem witness_StepKeepsInv : Inv { State.reset with inCap := ⟨14⟩, inputs := [.word (commandWord 0x02)] } ∧
    ∃ t, step { State.reset with inCap := ⟨14⟩, inputs := [.word (commandWord 0x02)] } = .next t :=
  ⟨⟨(reset_inv ⟨14⟩).schedule, (reset_inv ⟨14⟩).chaining, (reset_inv ⟨14⟩).accepted, (reset_inv ⟨14⟩).inBufWf,
    (reset_inv ⟨14⟩).inBufWithin, (reset_inv ⟨14⟩).outBufWf, (reset_inv ⟨14⟩).outBufWithin, (reset_inv ⟨14⟩).outLenFits,
    (reset_inv ⟨14⟩).outLenWritten⟩, ⟨_, rfl⟩⟩

theorem witness_CapacityIsLegalAndFixed : (∃ t, step sample = .next t) ∧ capacityLegal 32 = true ∧
    capacityLegal 0xFFFE0 = true := ⟨⟨_, rfl⟩, by decide⟩

theorem witness_EncodeDecode : decode (.command 0x26) = .ok .ark ∧ decode (.transaction 0x000000000100) = .ok (.rd 0x1) := by
  decide

/-- The bounds: bit 40 alone, all bits below 41, bit 41 alone, and a read with DATA = 255. -/
theorem witness_WordsThatSpellNoTransaction :
    ((0x010000000000 : TransactionWord).toNat < 2 ^ 41 ∧ (0x010000000000 : TransactionWord).getLsbD 40 = true) ∧
    ((0x01ffffffffff : TransactionWord).toNat < 2 ^ 41 ∧ (0x01ffffffffff : TransactionWord).getLsbD 40 = true) ∧
    ((0x00ffffffff00 : TransactionWord).getLsbD 40 = false ∧ (0x00ffffffff00 : TransactionWord).toNat % 256 = 0) ∧
    2 ^ 41 ≤ (0x020000000000 : TransactionWord).toNat ∧ (0x0000000000ff : TransactionWord).toNat % 256 ≠ 0 := by decide

theorem witness_ProgramWithoutCbceEnds :
    (sending sample ([0x000000000100#48].map .word)).inputs = [0x000000000100#48].map HostInput.word ∧
    ∀ w ∈ [0x000000000100#48], wordWellFormed w = true ∧ w ≠ commandWord 0x40 := by
  refine ⟨rfl, fun w hw => ?_⟩
  obtain rfl := List.mem_singleton.mp hw
  decide

theorem witness_LoadKeyProgram : State.reset.rngPending = false := rfl

end Sys2Proof.Tests
end

section
/-! PROOF. IN_CAP is a fixed legal parameter (spec/00_scope.md R6): each meaning keeps it, and so does a step; the
values of its type are exactly the legal capacities. -/

namespace Sys2Proof.Machine

section kept
variable {s t : State}

theorem cbceResume_inCap (h : cbceResume s = .next t) : t.inCap = s.inCap := by
  obtain ⟨script, polls, e | ⟨iv, e⟩⟩ := cbceResume_cases s <;> cases e.symm.trans h
  · rfl
  · exact cbceFinish_inCap iv _

theorem execCbce_inCap (h : execCbce s = .next t) : t.inCap = s.inCap := by
  rcases execCbce_cases s with ⟨_, e⟩ | ⟨_, _, e⟩ | ⟨_, _, e⟩
  · cases e.symm.trans h; rfl
  · cases e.symm.trans h; rfl
  · exact (cbceResume_inCap (e.symm.trans h)).trans (rngRequest_inCap s)

theorem execCbcd_inCap (h : execCbcd s = .next t) : t.inCap = s.inCap := by
  rcases execCbcd_cases s with ⟨_, e⟩ | ⟨_, _, e⟩ | ⟨_, _, _, e⟩ | ⟨_, _, _, _, _, e⟩ | ⟨_, _, _, _, _, e⟩ <;>
    cases e.symm.trans h
  case inr.inr.inr.inr => simp only [cbcdFinish_inCap, installSchedule_inCap]
  all_goals rfl

theorem exec_blockCommand_inCap {i : Instr} (hc : isCommand i = true) (hn : runsCbc i = false)
    (h : exec i s = .next t) : t.inCap = s.inCap := by
  rcases exec_blockCommand_cases hc hn h with ⟨_, e, _⟩ | ⟨e, _⟩ | ⟨_, e⟩ | ⟨_, _, e⟩ <;> rw [e]

theorem exec_command_inCap {i : Instr} (hc : isCommand i = true) (h : exec i s = .next t) : t.inCap = s.inCap := by
  cases i
  case cbce => exact execCbce_inCap h
  case cbcd => exact execCbcd_inCap h
  case rd => cases hc
  case wr => cases hc
  all_goals exact exec_blockCommand_inCap hc rfl h

theorem executeCommand_inCap {v : Byte} (h : executeCommand v s = .next t) : t.inCap = s.inCap := by
  rcases executeCommand_cases h with ⟨i, _, hc, hi⟩ | ⟨_, e⟩
  · exact exec_command_inCap hc hi
  · rw [e]

theorem execRd_inCap {a : Addr} (h : execRd a s = .next t) : t.inCap = s.inCap := by
  obtain ⟨v, _, e⟩ := execRd_next h
  rw [e]

theorem execWr_inCap {a : Addr} {v : Byte} (h : execWr a v s = .next t) : t.inCap = s.inCap := by
  rcases execWr_cases h with ⟨_, hc⟩ | ⟨_, _, _, e⟩ | ⟨_, e⟩ | ⟨_, e⟩ | ⟨_, e⟩ | ⟨_, e⟩ | ⟨_, _, _, e⟩ | ⟨_, _, _, e⟩ |
    ⟨_, _, _, e⟩
  · exact (executeCommand_inCap hc).trans rfl
  all_goals rw [e]

theorem exec_inCap {i : Instr} (h : exec i s = .next t) : t.inCap = s.inCap := by
  cases i
  case rd => exact execRd_inCap h
  case wr => exact execWr_inCap h
  all_goals exact exec_command_inCap rfl h

/-- A transaction word that answers a next state performed the instruction it spells. -/
theorem runWord_next {w : TransactionWord} (h : runWord w s = .next t) :
    ∃ i, decodeTransaction w = .ok i ∧ exec i s = .next t := by
  unfold runWord at h
  split at h
  · next i hi => exact ⟨i, hi, h⟩
  · cases h

/-- R6: a poll, an idle step, a reset event and a transaction all leave IN_CAP as it was. -/
theorem step_inCap (h : step s = .next t) : t.inCap = s.inCap := by
  rcases step_cases s with ⟨_, e⟩ | ⟨_, _, e⟩ | ⟨rest, _, _, e⟩ | ⟨w, rest, _, _, e⟩
  · exact cbceResume_inCap (e.symm.trans h)
  · cases e.symm.trans h; rfl
  · cases e.symm.trans h; exact hardReset_inCap _
  · obtain ⟨i, _, hi⟩ := runWord_next (e.symm.trans h)
    exact (exec_inCap hi).trans rfl

end kept

theorem capacityLegal_iff (n : Nat) : capacityLegal n = true ↔ n % 16 = 0 ∧ 32 ≤ n ∧ n ≤ 0xFFFE0 := by
  simp [capacityLegal, and_assoc]

theorem capacityLegal_inCapBytes (cap : InCap) : capacityLegal (inCapBytes cap) = true := by
  have hmod : inCapBytes cap % 16 = 0 := by unfold inCapBytes; omega
  exact (capacityLegal_iff _).mpr ⟨hmod, inCapBytes_bounds cap⟩

/-- The capacity of `n` bytes has `(n - 32) / 16` units above the smallest one. -/
theorem exists_inCapBytes_eq {n : Nat} (h : capacityLegal n = true) : ∃ cap : InCap, inCapBytes cap = n := by
  obtain ⟨hmod, hlo, hhi⟩ := (capacityLegal_iff n).mp h
  refine ⟨⟨⟨(n - 32) / 16, by omega⟩⟩, ?_⟩
  change 16 * ((n - 32) / 16) + 32 = n
  omega

/-- Settles O49: `step_inCap`, and the two directions between the type of IN_CAP and the legal capacities. -/
theorem capacityIsLegalAndFixed : Obligations.CapacityIsLegalAndFixed :=
  ⟨fun _ _ => step_inCap, fun cap => ⟨capacityLegal_inCapBytes cap, rfl⟩, fun _ => exists_inCapBytes_eq⟩

end Sys2Proof.Machine
end

section
/-! PROOF. A write to CMD (spec/10_state.md R23): the store and then the command, every command completes, none writes
CMD or another operand register, and a host read of CMD returns the byte. -/

namespace Sys2Proof.Machine

/-- What no command writes: the registers only the host stores to, IN_BUF with its reset draw, IN_CAP, the host's list
and what it has read. -/
structure OperandsKept (s t : State) : Prop where
  cmd : t.cmd = s.cmd
  opa : t.opa = s.opa
  opb : t.opb = s.opb
  round : t.round = s.round
  key : t.key = s.key
  keyLen : t.keyLen = s.keyLen
  inLen : t.inLen = s.inLen
  inBuf : t.inBuf = s.inBuf
  inCap : t.inCap = s.inCap
  inputs : t.inputs = s.inputs
  lastRead : t.lastRead = s.lastRead
  epoch : t.epoch = s.epoch

section commands
variable {s t : State}

theorem cbceResume_operandsKept (h : cbceResume s = .next t) : OperandsKept s t := by
  obtain ⟨script, polls, e | ⟨iv, e⟩⟩ := cbceResume_cases s <;> cases e.symm.trans h <;> constructor <;> rfl

theorem execCbce_operandsKept (h : execCbce s = .next t) : OperandsKept s t := by
  rcases execCbce_cases s with ⟨_, e⟩ | ⟨_, _, e⟩ | ⟨_, _, e⟩
  · cases e.symm.trans h; constructor <;> rfl
  · cases e.symm.trans h; constructor <;> rfl
  · obtain ⟨⟩ : OperandsKept (rngRequest s) t := cbceResume_operandsKept (e.symm.trans h)
    constructor <;> assumption

theorem execCbcd_operandsKept (h : execCbcd s = .next t) : OperandsKept s t := by
  rcases execCbcd_cases s with ⟨_, e⟩ | ⟨_, _, e⟩ | ⟨_, _, _, e⟩ | ⟨_, _, _, _, _, e⟩ | ⟨_, _, _, _, _, e⟩ <;>
    cases e.symm.trans h <;> constructor <;> rfl

theorem exec_blockCommand_operandsKept {i : Instr} (hc : isCommand i = true) (hn : runsCbc i = false)
    (h : exec i s = .next t) : OperandsKept s t := by
  rcases exec_blockCommand_cases hc hn h with ⟨_, e, _⟩ | ⟨e, _⟩ | ⟨_, e⟩ | ⟨_, _, e⟩ <;> rw [e] <;> constructor <;> rfl

theorem exec_command_operandsKept {i : Instr} (hc : isCommand i = true) (h : exec i s = .next t) :
    OperandsKept s t := by
  cases i
  case cbce => exact execCbce_operandsKept h
  case cbcd => exact execCbcd_operandsKept h
  case rd => cases hc
  case wr => cases hc
  all_goals exact exec_blockCommand_operandsKept hc rfl h

end commands

theorem cbceResume_next (s : State) : ∃ t, cbceResume s = .next t := by
  obtain ⟨_, _, e | ⟨_, e⟩⟩ := cbceResume_cases s <;> exact ⟨_, e⟩

theorem execCbce_next (s : State) : ∃ t, execCbce s = .next t := by
  rcases execCbce_cases s with ⟨_, e⟩ | ⟨_, _, e⟩ | ⟨_, _, e⟩
  · exact ⟨_, e⟩
  · exact ⟨_, e⟩
  · rw [e]; exact cbceResume_next _

/-- No command stops the run: failures are result codes (spec/60_exceptions.md R202). -/
theorem exec_command_next {i : Instr} (hc : isCommand i = true) (s : State) : ∃ t, exec i s = .next t := by
  cases i
  case cbce => exact execCbce_next s
  case rd => cases hc
  case wr => cases hc
  all_goals exact ⟨_, rfl⟩

/-- `execute(v)` of any byte, legal or not, completes with CMD as it was. -/
theorem executeCommand_next (v : Byte) (s : State) : ∃ t, executeCommand v s = .next t ∧ t.cmd = s.cmd := by
  rcases hd : decodeCommand v with e | i
  · exact ⟨_, executeCommand_of_error hd s, rfl⟩
  · have hc := decodeCommand_isCommand hd
    obtain ⟨t, ht⟩ := exec_command_next hc s
    exact ⟨t, (executeCommand_of_decode hd s).trans ht, (exec_command_operandsKept hc ht).cmd⟩

/-- R192, the row of CMD. -/
theorem exec_wr_cmdAddr (v : Byte) (s : State) : exec (.wr cmdAddr v) s = executeCommand v { s with cmd := v } := by
  change execWr cmdAddr v s = _
  unfold execWr
  rw [locate_cmd rfl]
  rfl

/-- `value(a)` of an address that is located (R191). -/
theorem hostRead_of_locate {s : State} {a : Addr} {r : Region} (h : locate s.inCap a = some r) :
    hostRead s a = some (regionByte r.name (a.toNat - r.base) s) := by
  simp [hostRead, h]

theorem hostRead_cmdAddr (s : State) : hostRead s cmdAddr = some s.cmd := hostRead_of_locate (locate_cmd rfl)

/-- R191: a RD of a mapped address gives the host its byte. -/
theorem exec_rd_of_hostRead {s : State} {a : Addr} {v : Byte} (h : hostRead s a = some v) :
    exec (.rd a) s = .next { s with lastRead := some v } := by
  change execRd a s = _
  unfold execRd
  rw [h]

/-- Settles O31: the store, the command or ILLEGAL, and the byte read back from a CMD that no command writes. -/
theorem cmdWriteRunsCommand : Obligations.CmdWriteRunsCommand := by
  intro s v
  rw [exec_wr_cmdAddr]
  refine ⟨fun i hi => executeCommand_of_decode hi _, fun e he => executeCommand_of_error he _, ?_⟩
  obtain ⟨t, ht, hcmd⟩ := executeCommand_next v { s with cmd := v }
  exact ⟨t, ht, hcmd, exec_rd_of_hostRead ((hostRead_cmdAddr t).trans (congrArg some hcmd))⟩

end Sys2Proof.Machine
end

section
/-! PROOF. The reset values (spec/10_state.md R43): the blocks and round keys of reset are zero, both RAMs read as the
table says, and the ROM windows hold their constants in every state. -/

namespace Sys2Proof.Machine

theorem reset_key : State.reset.key = blockOf fun _ => 0#8 := rfl

theorem reset_state : State.reset.state = blockOf fun _ => 0#8 := rfl

theorem roundKey_reset {r : Nat} (hr : r < 11) : roundKey State.reset.rk r = blockOf fun _ => 0#8 :=
  List.getD_replicate _ hr

/-- The draw of reset number 0: no byte has been written. -/
theorem inBufByte_reset (j : Nat) : inBufByte State.reset j = Config.inBufReset 0 j := rfl

/-- R57: with OUT_LEN = 0 the gate is closed at every offset. -/
theorem outBufByte_of_outLen_zero {s : State} (h : s.outLen = 0#32) (j : Nat) : outBufByte s j = 0#8 := by
  simp [outBufByte, h]

theorem hostRead_sboxRom (s : State) (x : Byte) : hostRead s (0x200 + x.setWidth 32) = some (sbox x) := by
  have ha : (0x200 + x.setWidth 32 : Addr).toNat = 0x200 + x.toNat := by bv_omega
  rw [hostRead_of_locate (locate_sboxRom x.isLt ha), ha]
  simp [regionByte]

theorem hostRead_invSboxRom (s : State) (x : Byte) : hostRead s (0x300 + x.setWidth 32) = some (invSbox x) := by
  have ha : (0x300 + x.setWidth 32 : Addr).toNat = 0x300 + x.toNat := by bv_omega
  rw [hostRead_of_locate (locate_invSboxRom x.isLt ha), ha]
  simp [regionByte]

theorem hostAddr_toNat {base j : Nat} (h : base + j < 2 ^ 32) : (hostAddr base j).toNat = base + j :=
  (BitVec.toNat_ofNat _ _).trans (Nat.mod_eq_of_lt h)

theorem hostRead_rconRom (s : State) {i : Nat} (hi : i < 10) : hostRead s (hostAddr 0x400 i) = some (rcon i) := by
  have ha : (hostAddr 0x400 i).toNat = 0x400 + i := hostAddr_toNat (by omega)
  rw [hostRead_of_locate (locate_rconRom hi ha), ha]
  simp [regionByte]

/-- Settles O45: the registers of reset by evaluation, the blocks, round keys, RAMs and ROM windows by their lemmas. -/
theorem resetValues : Obligations.ResetValues :=
  have hblock : ∀ k, k < 16 → blockByte State.reset.key k = 0 ∧ blockByte State.reset.state k = 0 := fun _ hk =>
    ⟨reset_key ▸ blockByte_blockOf _ hk, reset_state ▸ blockByte_blockOf _ hk⟩
  have hrk : ∀ r k, r < 11 → k < 16 → blockByte (roundKey State.reset.rk r) k = 0 := fun _ _ hr hk =>
    roundKey_reset hr ▸ blockByte_blockOf _ hk
  ⟨rfl, rfl, rfl, rfl, rfl, rfl, rfl, rfl, rfl, hblock, hrk, rfl, rfl, inBufByte_reset, outBufByte_of_outLen_zero rfl,
    rfl, fun x => ⟨hostRead_sboxRom _ x, hostRead_invSboxRom _ x⟩, fun _ hi => hostRead_rconRom _ hi⟩

end Sys2Proof.Machine
end

section
/-! PROOF. Which words spell a transaction (spec/30_encoding.md R89): the tests of the decoder as bounds on the word's
number, and the decoder's answer in each of its four cases. -/

namespace Sys2Proof

variable {w : TransactionWord}

theorem reservedBits_eq_zero_iff : w.extractLsb' 41 7 = 0#7 ↔ w.toNat < 2 ^ 41 := by
  rw [← BitVec.toNat_inj, reservedBits_toNat, BitVec.toNat_ofNat]
  omega

theorem wordData_eq_zero_iff : wordData w = 0#8 ↔ w.toNat % 256 = 0 := by
  rw [← BitVec.toNat_inj, wordData_toNat]
  rfl

theorem decodeTransaction_of_reservedBits (h : 2 ^ 41 ≤ w.toNat) :
    decodeTransaction w = .error (.reservedBits w) :=
  if_pos fun h0 => h.not_gt (reservedBits_eq_zero_iff.mp h0)

theorem decodeTransaction_of_write (h : w.toNat < 2 ^ 41) (hw : wordWrites w = true) :
    decodeTransaction w = .ok (.wr (wordAddr w) (wordData w)) := by
  simp [decodeTransaction, reservedBits_eq_zero_iff.mpr h, hw]

theorem decodeTransaction_of_readWithData (h : w.toNat < 2 ^ 41) (hw : wordWrites w = false) (hd : w.toNat % 256 ≠ 0) :
    decodeTransaction w = .error (.readWithData w) := by
  simp [decodeTransaction, reservedBits_eq_zero_iff.mpr h, hw, mt wordData_eq_zero_iff.mp hd]

theorem decodeTransaction_of_read (h : w.toNat < 2 ^ 41) (hw : wordWrites w = false) (hd : w.toNat % 256 = 0) :
    decodeTransaction w = .ok (.rd (wordAddr w)) := by
  simp [decodeTransaction, reservedBits_eq_zero_iff.mpr h, hw, wordData_eq_zero_iff.mpr hd]

/-- A refused word fails one of the two tests: a word that passes both is a WR or a RD. -/
theorem decodeTransaction_error_iff :
    (∃ e, decodeTransaction w = .error e) ↔ 2 ^ 41 ≤ w.toNat ∨ (wordWrites w = false ∧ w.toNat % 256 ≠ 0) := by
  rcases Nat.lt_or_ge w.toNat (2 ^ 41) with h | h
  · rcases hw : wordWrites w with _ | _
    · by_cases hd : w.toNat % 256 = 0
      · exact iff_of_false (by simp [decodeTransaction_of_read h hw hd]) (by simpa [hd] using h)
      · exact iff_of_true ⟨_, decodeTransaction_of_readWithData h hw hd⟩ (.inr ⟨rfl, hd⟩)
    · exact iff_of_false (by simp [decodeTransaction_of_write h hw]) (by simpa using h)
  · exact iff_of_true ⟨_, decodeTransaction_of_reservedBits h⟩ (.inl h)

/-- Settles O52: the two refusals as an equivalence, and the fields of the WR and the RD that every other word spells. -/
theorem wordsThatSpellNoTransaction : Obligations.WordsThatSpellNoTransaction := fun _ =>
  ⟨decodeTransaction_error_iff, decodeTransaction_of_write, decodeTransaction_of_read⟩

end Sys2Proof
end

section
/-! PROOF. The laws of gmul (spec/40_galois_rom.md R103). The loop is linear in each factor and commutes with xtime, and
every byte comes from 0x01 by xor and xtime; so each law needs checking only there (`byte_induction`). -/

namespace Sys2Proof.Machine

@[simp] theorem xtime_zero : xtime 0#8 = 0#8 := rfl

theorem xtime_eq_xor (a : Byte) : xtime a = (a <<< 1) ^^^ (if a.getLsbD 7 then 0x1B#8 else 0x00#8) := by
  unfold xtime
  split <;> simp

/-! ### Linearity -/

/-- A summand that a bit selects is linear in the word that holds the bit. -/
theorem ite_getLsbD_xor {w v : Nat} (b b' : BitVec w) (n : Nat) (a : BitVec v) :
    (if (b ^^^ b').getLsbD n then a else 0) = (if b.getLsbD n then a else 0) ^^^ (if b'.getLsbD n then a else 0) := by
  rw [BitVec.getLsbD_xor]
  cases b.getLsbD n <;> cases b'.getLsbD n <;> simp

theorem gmulLoop_xor_left (n : Nat) (a a' b : Byte) :
    gmulLoop n (a ^^^ a') b 0 = gmulLoop n a b 0 ^^^ gmulLoop n a' b 0 := by
  induction n generalizing a a' b with
  | zero => simp [gmulLoop]
  | succ n ih =>
    simp only [gmulLoop_succ, xtime_xor, ih]
    split
    · ac_rfl
    · simp

theorem gmulLoop_xor_right (n : Nat) (a b b' : Byte) :
    gmulLoop n a (b ^^^ b') 0 = gmulLoop n a b 0 ^^^ gmulLoop n a b' 0 := by
  induction n generalizing a b b' with
  | zero => simp [gmulLoop]
  | succ n ih =>
    simp only [gmulLoop_succ, BitVec.ushiftRight_xor_distrib, ih, ite_getLsbD_xor]
    ac_rfl

theorem gmulLoop_xtime_left (n : Nat) (a b : Byte) : gmulLoop n (xtime a) b 0 = xtime (gmulLoop n a b 0) := by
  induction n generalizing a b with
  | zero => simp [gmulLoop]
  | succ n ih =>
    simp only [gmulLoop_succ, xtime_xor, ih]
    split <;> simp

theorem gmul_xor_left (a a' b : Byte) : gmul (a ^^^ a') b = gmul a b ^^^ gmul a' b := gmulLoop_xor_left 8 a a' b

theorem gmul_xor_right (a b b' : Byte) : gmul a (b ^^^ b') = gmul a b ^^^ gmul a b' := gmulLoop_xor_right 8 a b b'

theorem gmul_xtime_left (a b : Byte) : gmul (xtime a) b = xtime (gmul a b) := gmulLoop_xtime_left 8 a b

@[simp] theorem gmul_zero_left (b : Byte) : gmul 0#8 b = 0#8 := by
  simpa using gmul_xor_left b b b

@[simp] theorem gmul_zero_right (a : Byte) : gmul a 0#8 = 0#8 := by
  simpa using gmul_xor_right a a a

/-! ### Induction on bytes -/

@[simp] theorem gmul_one_left : ∀ b : Byte, gmul 1#8 b = b := by decide

/-- What xor and xtime keep holds of a sum of reduced shifts of `a` once it holds of `a`. -/
theorem gmulLoop_induction {P : Byte → Prop} (xor : ∀ a b, P a → P b → P (a ^^^ b))
    (xtime : ∀ a, P a → P (xtime a)) (n : Nat) {a : Byte} (ha : P a) (b : Byte) : P (gmulLoop n a b 0) := by
  have zero : P 0 := by simpa using xor a a ha ha
  induction n generalizing a b with
  | zero => exact zero
  | succ n ih =>
    rw [gmulLoop_succ]
    refine xor _ _ ?_ (ih (xtime a ha) _)
    split
    · exact ha
    · exact zero

/-- A byte is the polynomial of its bits: a sum of reduced shifts of 0x01. -/
theorem byte_induction {P : Byte → Prop} (one : P 1#8) (xor : ∀ a b, P a → P b → P (a ^^^ b))
    (xtime : ∀ a, P a → P (xtime a)) (a : Byte) : P a :=
  gmul_one_left a ▸ gmulLoop_induction xor xtime 8 one a

theorem gmul_xtime_right (a b : Byte) : gmul a (xtime b) = xtime (gmul a b) := by
  induction a using byte_induction with
  | one => simp
  | xor a a' ha ha' => simp only [gmul_xor_left, ha, ha', xtime_xor]
  | xtime a ha => simp only [gmul_xtime_left, ha]

@[simp] theorem gmul_one_right (a : Byte) : gmul a 1#8 = a := by
  induction a using byte_induction with
  | one => exact gmul_one_left 1
  | xor a a' ha ha' => rw [gmul_xor_left, ha, ha']
  | xtime a ha => rw [gmul_xtime_left, ha]

theorem gmul_comm (a b : Byte) : gmul a b = gmul b a := by
  induction a using byte_induction with
  | one => simp
  | xor a a' ha ha' => rw [gmul_xor_left, gmul_xor_right, ha, ha']
  | xtime a ha => rw [gmul_xtime_left, gmul_xtime_right, ha]

theorem gmul_assoc (a b c : Byte) : gmul (gmul a b) c = gmul a (gmul b c) := by
  induction a using byte_induction with
  | one => simp
  | xor a a' ha ha' => simp only [gmul_xor_left, ha, ha']
  | xtime a ha => simp only [gmul_xtime_left, ha]

theorem gmul_two_right (a : Byte) : gmul a 0x02#8 = xtime a := by
  have h : xtime 1#8 = 0x02#8 := rfl
  rw [← h, gmul_xtime_right, gmul_one_right]

/-! ### Inverses -/

/-- The inverse of the affine map of R107, by which the S-box hides the inverse of its index. -/
def affineInverse (y : Byte) : Byte := y.rotateLeft 1 ^^^ y.rotateLeft 3 ^^^ y.rotateLeft 6 ^^^ 0x05#8

/-- The S-box is a table of inverses: one product for each nonzero byte. -/
theorem gmul_affineInverse_sbox : ∀ a : Byte, a ≠ 0 → gmul a (affineInverse (sbox a)) = 1#8 := by decide

theorem gmul_inverse_unique {a b b' : Byte} (h : gmul a b = 1#8) (h' : gmul a b' = 1#8) : b' = b := by
  calc b' = gmul (gmul a b) b' := by rw [h, gmul_one_left]
    _ = gmul b (gmul a b') := by rw [gmul_comm a b, gmul_assoc]
    _ = b := by rw [h', gmul_one_right]

/-- Settles O2: the laws one by one, with the inverse of a nonzero byte read from the S-box. -/
theorem gmulFieldLaws : Obligations.GmulFieldLaws :=
  ⟨gmul_comm, gmul_assoc, gmul_xor_right,
    fun a => ⟨gmul_one_right a, gmul_one_left a, gmul_zero_right a, gmul_zero_left a⟩,
    fun a ha => ⟨affineInverse (sbox a), gmul_affineInverse_sbox a ha, fun _ =>
      gmul_inverse_unique (gmul_affineInverse_sbox a ha)⟩,
    fun a => (gmul_two_right a).trans (xtime_eq_xor a)⟩

/-- Settles O3: the arm of GFMUL, evaluated. -/
theorem gfmulWritesProduct : Obligations.GfmulWritesProduct := fun _ => rfl

end Sys2Proof.Machine
end

section
/-! PROOF. gmul is the product of polynomials modulo 0x11B (spec/40_galois_rom.md R100): `n` rounds of xtime are the
shift by `n` up to a multiple of 0x11B, and the loop and the product sum these shifts over the same bits. -/

namespace Sys2Proof.Machine

/-- `u` is `v` plus a multiple of 0x11B whose quotient has degree below 8. -/
def CongruentModulo11B (u v : BitVec 16) : Prop :=
  ∃ q : Byte, u = polyMul 8 0x11B#16 (q.setWidth 16) ^^^ v

theorem polyMul_xor_right (n : Nat) (a b b' : BitVec 16) :
    polyMul n a (b ^^^ b') = polyMul n a b ^^^ polyMul n a b' := by
  induction n with
  | zero => simp [polyMul]
  | succ n ih =>
    simp only [polyMul, ih, ite_getLsbD_xor]
    ac_rfl

theorem CongruentModulo11B.refl (u : BitVec 16) : CongruentModulo11B u u := ⟨0, by simp [polyMul]⟩

theorem CongruentModulo11B.xor {u u' v v' : BitVec 16} (h : CongruentModulo11B u v) (h' : CongruentModulo11B u' v') :
    CongruentModulo11B (u ^^^ u') (v ^^^ v') := by
  obtain ⟨q, rfl⟩ := h
  obtain ⟨q', rfl⟩ := h'
  refine ⟨q ^^^ q', ?_⟩
  rw [BitVec.setWidth_xor, polyMul_xor_right]
  ac_rfl

theorem polyMul_modulus_shift :
    ∀ n : Nat, n < 8 → polyMul 8 0x11B#16 ((1#8 <<< n).setWidth 16) = 0x11B#16 <<< n := by decide

theorem modulus_shiftLeft_congruent {n : Nat} (hn : n < 8) : CongruentModulo11B (0x11B#16 <<< n) 0#16 :=
  ⟨1#8 <<< n, by rw [polyMul_modulus_shift n hn, BitVec.xor_zero]⟩

/-- xtime is the shift by one, less the modulus when the top bit leaves the byte. -/
theorem shiftLeft_one_eq_xtime_xor : ∀ a : Byte,
    a.setWidth 16 <<< 1 = (xtime a).setWidth 16 ^^^ (if a.getLsbD 7 then 0x11B#16 else 0) := by decide

theorem shiftLeft_congruent_xtime {n : Nat} (hn : n ≤ 8) (a : Byte) :
    CongruentModulo11B (a.setWidth 16 <<< n) ((xtime^[n] a).setWidth 16) := by
  induction n generalizing a with
  | zero => simpa using .refl _
  | succ n ih =>
    have hm : CongruentModulo11B ((if a.getLsbD 7 then 0x11B#16 else 0) <<< n) 0#16 := by
      split
      · exact modulus_shiftLeft_congruent hn
      · simpa using .refl 0
    rw [Nat.add_comm, BitVec.shiftLeft_add, shiftLeft_one_eq_xtime_xor, BitVec.shiftLeft_xor_distrib, Nat.add_comm]
    simpa using (ih (Nat.le_of_succ_le hn) (xtime a)).xor hm

/-- The last round of the loop: it adds the reduced shift that the top bit selects. -/
theorem gmulLoop_last (n : Nat) (a b : Byte) :
    gmulLoop (n + 1) a b 0 = gmulLoop n a b 0 ^^^ (if b.getLsbD n then xtime^[n] a else 0) := by
  induction n generalizing a b with
  | zero => simp [gmulLoop]
  | succ n ih =>
    rw [gmulLoop_succ, ih, gmulLoop_succ n, BitVec.getLsbD_ushiftRight, Nat.add_comm 1 n, Function.iterate_succ_apply,
      BitVec.xor_assoc]

theorem polyMul_congruent_gmulLoop {n : Nat} (hn : n ≤ 8) (a b : Byte) :
    CongruentModulo11B (polyMul n (a.setWidth 16) (b.setWidth 16)) ((gmulLoop n a b 0).setWidth 16) := by
  induction n with
  | zero => exact .refl 0
  | succ n ih =>
    have hbit : (b.setWidth 16).getLsbD n = b.getLsbD n := by
      rw [BitVec.getLsbD_setWidth, decide_eq_true (by omega), Bool.true_and]
    rw [polyMul, gmulLoop_last, BitVec.setWidth_xor, hbit]
    refine (ih (Nat.le_of_succ_le hn)).xor ?_
    split
    · exact shiftLeft_congruent_xtime (Nat.le_of_succ_le hn) a
    · exact .refl 0

/-- Settles O1: eight rounds of the loop against the eight bits of the product, and the two worked examples. -/
theorem gmulIsProductModulo11B : Obligations.GmulIsProductModulo11B :=
  ⟨polyMul_congruent_gmulLoop (Nat.le_refl 8), by decide, by decide⟩

end Sys2Proof.Machine
end

section
/-! PROOF. The key schedule (spec/41_key_schedule.md): each column of a round key by its row bytes (R120, R121), and
the one schedule that a completed KEYEXP, CBCE or CBCD leaves behind (R122, R123). -/

namespace Sys2Proof.Machine

/-! ### The recurrence -/

/-- R11: flat byte `4c + r` is row `r` of column `c`. -/
theorem blockByte_four_mul_add (s : Block) (c : Nat) {r : Nat} (hr : r < 4) :
    blockByte s (4 * c + r) = columnByte (blockColumn s c) r := by
  have hdiv : (4 * c + r) / 4 = c := by omega
  have hmod : (4 * c + r) % 4 = r := by omega
  rw [blockByte, hdiv, hmod]

theorem columnByte_xorColumn (a b : Column) {r : Nat} (hr : r < 4) :
    columnByte (xorColumn a b) r = columnByte a r ^^^ columnByte b r := by
  interval_cases r <;> rfl

theorem columnByte_rotWord (w : Column) {r : Nat} (hr : r < 4) :
    columnByte (rotWord w) r = columnByte w ((r + 1) % 4) := by
  interval_cases r <;> rfl

theorem columnByte_subWord (w : Column) {r : Nat} (hr : r < 4) :
    columnByte (subWord w) r = sbox (columnByte w r) := by
  interval_cases r <;> rfl

/-- C6: the round constant reaches byte 0 only. -/
theorem columnByte_addRcon (i : Nat) (w : Column) {r : Nat} (hr : r < 4) :
    columnByte (addRcon i w) r = columnByte w r ^^^ (if r = 0 then rcon i else 0x00#8) := by
  interval_cases r
  · rfl
  all_goals exact BitVec.xor_zero.symm

theorem blockColumn_nextRoundKey_zero (i : Nat) (k : Block) :
    blockColumn (nextRoundKey i k) 0 =
      xorColumn (blockColumn k 0) (addRcon i (subWord (rotWord (blockColumn k 3)))) := rfl

theorem blockColumn_nextRoundKey_succ (i : Nat) (k : Block) {c : Nat} (hc : c < 3) :
    blockColumn (nextRoundKey i k) (c + 1) =
      xorColumn (blockColumn (nextRoundKey i k) c) (blockColumn k (c + 1)) := by
  interval_cases c <;> rfl

/-- R121, column 0: the old column 0 and the rotated, substituted last column with its round constant. -/
theorem blockByte_nextRoundKey_firstColumn (i : Nat) (k : Block) {r : Nat} (hr : r < 4) :
    blockByte (nextRoundKey i k) r =
      blockByte k r ^^^ (sbox (blockByte k (12 + (r + 1) % 4)) ^^^ (if r = 0 then rcon i else 0x00#8)) := by
  have hfirst : ∀ s : Block, blockByte s r = columnByte (blockColumn s 0) r := fun s => by
    simpa using blockByte_four_mul_add s 0 hr
  have hrot : (r + 1) % 4 < 4 := Nat.mod_lt _ (by decide)
  rw [hfirst, hfirst, blockByte_four_mul_add k 3 hrot, blockColumn_nextRoundKey_zero, columnByte_xorColumn _ _ hr,
    columnByte_addRcon _ _ hr, columnByte_subWord _ hr, columnByte_rotWord _ hr]

/-- R121, columns 1 to 3: the new column before and the old column. -/
theorem blockByte_nextRoundKey_laterColumn (i : Nat) (k : Block) {c r : Nat} (hc : c < 3) (hr : r < 4) :
    blockByte (nextRoundKey i k) (4 * (c + 1) + r) =
      blockByte (nextRoundKey i k) (4 * c + r) ^^^ blockByte k (4 * (c + 1) + r) := by
  simp only [blockByte_four_mul_add _ _ hr, blockColumn_nextRoundKey_succ i k hc, columnByte_xorColumn _ _ hr]

theorem roundKey_expand_zero (k : Block) : roundKey (expand k) 0 = k := rfl

theorem roundKey_expand_succ (k : Block) {i : Nat} (hi : i < 10) :
    roundKey (expand k) (i + 1) = nextRoundKey i (roundKey (expand k) i) := by
  interval_cases i <;> rfl

/-- Settles O6: each round key is `nextRoundKey` of the one before it, whose bytes the two column lemmas give. -/
theorem expandFollowsRecurrence : Obligations.ExpandFollowsRecurrence := by
  intro k
  refine ⟨roundKey_expand_zero k, fun i hi r hr => ?_⟩
  rw [roundKey_expand_succ k hi]
  refine ⟨blockByte_nextRoundKey_firstColumn i _ hr, fun c hc hc4 => ?_⟩
  obtain ⟨c, rfl⟩ := Nat.exists_eq_add_of_le' hc
  exact blockByte_nextRoundKey_laterColumn i _ (by omega) hr

/-! ### The commands that expand -/

/-- Settles O7: the two cases of KEYEXP, which its KEYLEN selects. -/
theorem keyexpExpandsOrRejects : Obligations.KeyexpExpandsOrRejects := by
  intro s
  rcases execKeyexp_cases s with ⟨hk, e⟩ | ⟨hk, e⟩
  · exact ⟨fun _ => e, fun hn => absurd hk hn⟩
  · exact ⟨fun h => absurd h hk, fun _ => e⟩

/-- R33, R34: the next state holds the schedule of the key, and it is valid. -/
structure ScheduleInstalled (s t : State) : Prop where
  rk : t.rk = expand s.key
  valid : t.schedValid = true

section expansion
variable {s t : State}

/-- KEYEXP that did not answer INVALID_KEY_LENGTH. -/
theorem execKeyexp_scheduleInstalled (h : execKeyexp s = .next t) (he : t.err ∈ [ErrCode.ok, .paddingInvalid]) :
    ScheduleInstalled s t := by
  rcases execKeyexp_cases s with ⟨_, e⟩ | ⟨_, e⟩ <;> cases e.symm.trans h
  · exact ⟨rfl, rfl⟩
  · simp at he

/-- A poll that is no longer pending was answered. -/
theorem cbceResume_scheduleInstalled (hs : s.rngPending = true) (h : cbceResume s = .next t)
    (hp : t.rngPending = false) : ScheduleInstalled s t := by
  obtain ⟨_, _, e | ⟨_, e⟩⟩ := cbceResume_cases s <;> cases e.symm.trans h
  · simp [hs] at hp
  · exact ⟨rfl, rfl⟩

/-- CBCE past its prechecks, once the RNG has answered. -/
theorem execCbce_scheduleInstalled (h : execCbce s = .next t) (hp : t.rngPending = false)
    (he : t.err ∈ [ErrCode.ok, .paddingInvalid]) : ScheduleInstalled s t := by
  rcases execCbce_cases s with ⟨_, e⟩ | ⟨_, _, e⟩ | ⟨_, _, e⟩
  · cases e.symm.trans h; simp at he
  · cases e.symm.trans h; simp at he
  · obtain ⟨hrk, hvalid⟩ := cbceResume_scheduleInstalled (rngRequest_rngPending s) (e.symm.trans h) hp
    exact ⟨hrk, hvalid⟩

/-- CBCD past its checks, whether or not the padding was valid. -/
theorem execCbcd_scheduleInstalled (h : execCbcd s = .next t) (he : t.err ∈ [ErrCode.ok, .paddingInvalid]) :
    ScheduleInstalled s t := by
  rcases execCbcd_cases s with ⟨_, e⟩ | ⟨_, _, e⟩ | ⟨_, _, _, e⟩ | ⟨_, _, _, _, _, e⟩ | ⟨_, _, _, _, _, e⟩ <;>
    cases e.symm.trans h
  case inr.inr.inr.inl => exact ⟨rfl, rfl⟩
  case inr.inr.inr.inr => exact ⟨rfl, rfl⟩
  all_goals simp at he

theorem exec_scheduleInstalled {i : Instr} (hi : i ∈ [Instr.keyexp, .cbce, .cbcd]) (h : exec i s = .next t)
    (hp : t.rngPending = false) (he : t.err ∈ [ErrCode.ok, .paddingInvalid]) : ScheduleInstalled s t := by
  simp only [List.mem_cons, List.not_mem_nil, or_false] at hi
  rcases hi with rfl | rfl | rfl
  · exact execKeyexp_scheduleInstalled h he
  · exact execCbce_scheduleInstalled h hp he
  · exact execCbcd_scheduleInstalled h he

end expansion

/-- Settles O8: both runs hold the expansion of the one key. -/
theorem expansionDependsOnKeyAlone : Obligations.ExpansionDependsOnKeyAlone := by
  intro i j s s' t t' hi hj hkey h h' hp hp' he he'
  obtain ⟨hrk, hvalid⟩ := exec_scheduleInstalled hi h hp he
  obtain ⟨hrk', hvalid'⟩ := exec_scheduleInstalled hj h' hp' he'
  exact ⟨by rw [hrk, hrk', hkey], hvalid, hvalid'⟩

end Sys2Proof.Machine
end

section
/-! PROOF. The round primitives (spec/42_round_transforms.md): what each does to the bytes of a block (R130 to R136),
and that its inverse undoes it (R137). Both mix matrices are circulant, so a column is multiplied by a fixed column as
polynomials modulo x^4 + 1, an associative product in which the two fixed columns are inverse. -/

namespace Sys2Proof.Machine

/-! ### Bytes, rows and columns -/

/-- Two blocks that agree on every row of every column are equal. -/
theorem block_ext_rows {s t : Block}
    (h : ∀ c r, c < 4 → r < 4 → blockByte s (4 * c + r) = blockByte t (4 * c + r)) : s = t := by
  refine block_ext fun k hk => ?_
  rw [← Nat.div_add_mod k 4]
  exact h _ _ (by omega) (by omega)

theorem blockByte_subBytes (s : Block) {k : Nat} (hk : k < 16) : blockByte (subBytes s) k = sbox (blockByte s k) :=
  blockByte_blockOf _ hk

theorem blockByte_invSubBytes (s : Block) {k : Nat} (hk : k < 16) :
    blockByte (invSubBytes s) k = invSbox (blockByte s k) :=
  blockByte_blockOf _ hk

theorem blockByte_addRoundKey (s k : Block) {j : Nat} (hj : j < 16) :
    blockByte (addRoundKey s k) j = blockByte s j ^^^ blockByte k j :=
  blockByte_xorBlock s k hj

theorem blockByte_permuteRows (source : Nat → Nat → Nat) (s : Block) {c r : Nat} (hc : c < 4) (hr : r < 4) :
    blockByte (permuteRows source s) (4 * c + r) = blockByte s (4 * (source c r % 4) + r) := by
  have hdiv : (4 * c + r) / 4 = c := by omega
  have hmod : (4 * c + r) % 4 = r := by omega
  rw [permuteRows, blockByte_blockOf _ (by omega), hdiv, hmod]

theorem blockByte_shiftRows (s : Block) {c r : Nat} (hc : c < 4) (hr : r < 4) :
    blockByte (shiftRows s) (4 * c + r) = blockByte s (4 * ((c + r) % 4) + r) :=
  blockByte_permuteRows _ s hc hr

theorem blockByte_invShiftRows (s : Block) {c r : Nat} (hc : c < 4) (hr : r < 4) :
    blockByte (invShiftRows s) (4 * c + r) = blockByte s (4 * ((c + 4 - r) % 4) + r) :=
  blockByte_permuteRows _ s hc hr

/-! ### Columns as polynomials modulo x^4 + 1 -/

/-- The product of two columns as polynomials over GF(2^8) modulo x^4 + 1, row `r` being the coefficient of x^r: the
circulant matrix whose first column is `m`, times the column `a`. -/
def mulColumn (m a : Column) : Column := columnOf fun r =>
  gmul m.r0 (columnByte a r) ^^^ gmul m.r3 (columnByte a ((r + 1) % 4)) ^^^
    gmul m.r2 (columnByte a ((r + 2) % 4)) ^^^ gmul m.r1 (columnByte a ((r + 3) % 4))

/-- Row `r` of a column made of `f` is `f r`. -/
theorem columnByte_columnOf (f : Nat → Byte) {r : Nat} (hr : r < 4) : columnByte (columnOf f) r = f r := by
  interval_cases r <;> rfl

theorem columnByte_mulColumn (m a : Column) {r : Nat} (hr : r < 4) :
    columnByte (mulColumn m a) r =
      gmul m.r0 (columnByte a r) ^^^ gmul m.r3 (columnByte a ((r + 1) % 4)) ^^^
        gmul m.r2 (columnByte a ((r + 2) % 4)) ^^^ gmul m.r1 (columnByte a ((r + 3) % 4)) :=
  columnByte_columnOf _ hr

/-- The first column of the matrix of R134. -/
def mixCoefficients : Column := ⟨0x02, 0x01, 0x01, 0x03⟩

/-- The first column of the matrix of R135. -/
def invMixCoefficients : Column := ⟨0x0e, 0x09, 0x0d, 0x0b⟩

theorem mixColumn_eq_mulColumn (a : Column) : mixColumn a = mulColumn mixCoefficients a := by
  simp only [mixColumn, mulColumn, mixCoefficients, columnOf, columnByte, BitVec.ofNat_eq_ofNat, gmul_one_left,
    Column.mk.injEq, true_and]
  refine ⟨?_, ?_, ?_⟩ <;> ac_rfl

theorem invMixColumn_eq_mulColumn (a : Column) : invMixColumn a = mulColumn invMixCoefficients a := by
  simp only [invMixColumn, mulColumn, invMixCoefficients, columnOf, columnByte, Column.mk.injEq, true_and]
  refine ⟨?_, ?_, ?_⟩ <;> ac_rfl

theorem mulColumn_assoc (m n a : Column) : mulColumn (mulColumn m n) a = mulColumn m (mulColumn n a) := by
  simp only [mulColumn, columnOf, columnByte, gmul_xor_left, gmul_xor_right, gmul_assoc, Column.mk.injEq]
  refine ⟨?_, ?_, ?_, ?_⟩ <;> ac_rfl

theorem mulColumn_one (a : Column) : mulColumn ⟨0x01, 0x00, 0x00, 0x00⟩ a = a := by
  simp [mulColumn, columnOf, columnByte]

theorem invMixCoefficients_mul_mixCoefficients :
    mulColumn invMixCoefficients mixCoefficients = ⟨0x01, 0x00, 0x00, 0x00⟩ := by decide

theorem invMixColumn_mixColumn (a : Column) : invMixColumn (mixColumn a) = a := by
  rw [mixColumn_eq_mulColumn, invMixColumn_eq_mulColumn, ← mulColumn_assoc, invMixCoefficients_mul_mixCoefficients,
    mulColumn_one]

theorem blockColumn_mixColumns (s : Block) {c : Nat} (hc : c < 4) :
    blockColumn (mixColumns s) c = mulColumn mixCoefficients (blockColumn s c) := by
  interval_cases c <;> exact mixColumn_eq_mulColumn _

theorem blockColumn_invMixColumns (s : Block) {c : Nat} (hc : c < 4) :
    blockColumn (invMixColumns s) c = mulColumn invMixCoefficients (blockColumn s c) := by
  interval_cases c <;> exact invMixColumn_eq_mulColumn _

/-- A product of columns by the flat bytes of the block that holds the column. -/
theorem blockByte_of_blockColumn_mulColumn {s t : Block} (m : Column) {c r : Nat}
    (h : blockColumn t c = mulColumn m (blockColumn s c)) (hr : r < 4) :
    blockByte t (4 * c + r) =
      gmul m.r0 (blockByte s (4 * c + r)) ^^^ gmul m.r3 (blockByte s (4 * c + (r + 1) % 4)) ^^^
        gmul m.r2 (blockByte s (4 * c + (r + 2) % 4)) ^^^ gmul m.r1 (blockByte s (4 * c + (r + 3) % 4)) := by
  have hrow : ∀ j, blockByte s (4 * c + j % 4) = columnByte (blockColumn s c) (j % 4) := fun j =>
    blockByte_four_mul_add s c (Nat.mod_lt j (by decide))
  rw [blockByte_four_mul_add t c hr, h, columnByte_mulColumn m _ hr, blockByte_four_mul_add s c hr, hrow, hrow, hrow]

/-! ### The commands -/

/-- Settles O9: the two arms, and the bytes of the two substitutions. -/
theorem subBytesCommands : Obligations.SubBytesCommands := fun s =>
  ⟨⟨_, rfl, rfl, fun _ => blockByte_subBytes s.state⟩, ⟨_, rfl, rfl, fun _ => blockByte_invSubBytes s.state⟩⟩

/-- Settles O10: the two arms, and the source of every byte in the two rotations. -/
theorem shiftRowsCommands : Obligations.ShiftRowsCommands := fun s =>
  ⟨⟨_, rfl, rfl, fun _ _ => blockByte_shiftRows s.state⟩, ⟨_, rfl, rfl, fun _ _ => blockByte_invShiftRows s.state⟩⟩

/-- Settles O11: the two arms, each column the product with the first column of its circulant matrix. -/
theorem mixColumnsCommands : Obligations.MixColumnsCommands := fun s =>
  ⟨⟨_, rfl, rfl, fun _ _ hc => blockByte_of_blockColumn_mulColumn mixCoefficients (blockColumn_mixColumns s.state hc)⟩,
    ⟨_, rfl, rfl, fun _ _ hc =>
      blockByte_of_blockColumn_mulColumn invMixCoefficients (blockColumn_invMixColumns s.state hc)⟩⟩

/-- Settles O12: the three cases of ARK exclude each other. -/
theorem arkXorsRoundKey : Obligations.ArkXorsRoundKey := by
  intro s
  rcases execArk_cases s with ⟨hv, e⟩ | ⟨hv, hr, e⟩ | ⟨hv, hr, e⟩
  · exact ⟨fun _ => e, by simp [hv], by simp [hv]⟩
  · exact ⟨by simp [hv], fun _ _ => e, fun _ hle => absurd hr hle.not_gt⟩
  · exact ⟨by simp [hv], fun _ hgt => absurd hgt hr.not_gt, fun _ _ =>
      ⟨_, e, rfl, fun _ => blockByte_addRoundKey s.state _⟩⟩

/-! ### The laws -/

theorem invSbox_sbox : ∀ x : Byte, invSbox (sbox x) = x := by decide

theorem invSubBytes_subBytes (s : Block) : invSubBytes (subBytes s) = s :=
  block_ext fun k hk => by rw [blockByte_invSubBytes _ hk, blockByte_subBytes _ hk, invSbox_sbox]

/-- R132 after R133: column `c` of row `r` comes from `r` columns to the left, which comes from `c` again. -/
theorem invShiftRows_shiftRows (s : Block) : invShiftRows (shiftRows s) = s := by
  refine block_ext_rows fun c r hc hr => ?_
  have hback : ((c + 4 - r) % 4 + r) % 4 = c := by omega
  rw [blockByte_invShiftRows _ hc hr, blockByte_shiftRows _ (Nat.mod_lt _ (by decide)) hr, hback]

theorem invMixColumns_mixColumns (s : Block) : invMixColumns (mixColumns s) = s := by
  simp only [invMixColumns, mixColumns, invMixColumn_mixColumn]

theorem addRoundKey_addRoundKey (s k : Block) : addRoundKey (addRoundKey s k) k = s := xorBlock_self_right s k

/-- One acts on values, the other on positions. -/
theorem subBytes_shiftRows (s : Block) : subBytes (shiftRows s) = shiftRows (subBytes s) := by
  refine block_ext_rows fun c r hc hr => ?_
  rw [blockByte_subBytes _ (by omega), blockByte_shiftRows _ hc hr, blockByte_shiftRows _ hc hr,
    blockByte_subBytes _ (by omega)]

/-- Settles O13: the five laws. -/
theorem primitivesHaveInverses : Obligations.PrimitivesHaveInverses := fun s k =>
  ⟨invSubBytes_subBytes s, invShiftRows_shiftRows s, invMixColumns_mixColumns s, addRoundKey_addRoundKey s k,
    subBytes_shiftRows s⟩

end Sys2Proof.Machine
end

section
/-! PROOF. The block pipelines (spec/43_block_cipher.md). The round states of ENCB and DECB are read off their
recursions (R150, R151). For R152 the laws of R137 are needed in both directions; the rounds then cancel from the
middle outwards, each inverse round passing the substituted and shifted state of one forward round on to the round
before it. -/

namespace Sys2Proof.Machine

/-! ### The commands -/

theorem exec_encb_of_schedValid {s : State} (h : s.schedValid = true) :
    exec .encb s = .next { s with state := encryptBlock s.state s.rk, err := .ok } := by
  obtain ⟨hn, _⟩ | ⟨_, e⟩ := execEncb_cases s
  · simp [h] at hn
  · exact e

theorem exec_encb_of_not_schedValid {s : State} (h : s.schedValid = false) :
    exec .encb s = .next { s with err := .noSchedule } := by
  obtain ⟨_, e⟩ | ⟨hv, _⟩ := execEncb_cases s
  · exact e
  · simp [h] at hv

theorem exec_decb_of_schedValid {s : State} (h : s.schedValid = true) :
    exec .decb s = .next { s with state := decryptBlock s.state s.rk, err := .ok } := by
  obtain ⟨hn, _⟩ | ⟨_, e⟩ := execDecb_cases s
  · simp [h] at hn
  · exact e

theorem exec_decb_of_not_schedValid {s : State} (h : s.schedValid = false) :
    exec .decb s = .next { s with err := .noSchedule } := by
  obtain ⟨_, e⟩ | ⟨hv, _⟩ := execDecb_cases s
  · exact e
  · simp [h] at hv

/-! ### The states between the rounds -/

/-- R150: the state after AddRoundKey `r` of ENCB. -/
def encryptTrace (rk : Schedule) (s : Block) (r : Nat) : Block :=
  if r < 10 then encryptRounds rk r (addRoundKey s (roundKey rk 0)) else encryptBlock s rk

theorem encryptTrace_round (rk : Schedule) (s : Block) {r : Nat} (h1 : 1 ≤ r) (h9 : r ≤ 9) :
    encryptTrace rk s r = encryptRound (roundKey rk r) (encryptTrace rk s (r - 1)) := by
  obtain ⟨n, rfl⟩ := Nat.exists_eq_add_of_le' h1
  rw [encryptTrace, encryptTrace, if_pos (by omega), if_pos (by omega)]
  rfl

/-- The inverse rounds `n` down to 1 as a sequence: `x r` is the state after round `r`. -/
theorem exists_decryptRounds_trace (rk : Schedule) (n : Nat) (s : Block) :
    ∃ x : Nat → Block, x (n + 1) = s ∧
      (∀ r, 1 ≤ r → r ≤ n → x r = decryptRound (roundKey rk r) (x (r + 1))) ∧ x 1 = decryptRounds rk n s := by
  induction n generalizing s with
  | zero => exact ⟨fun _ => s, rfl, by omega, rfl⟩
  | succ n ih =>
    obtain ⟨x, hstart, hround, hend⟩ := ih (decryptRound (roundKey rk (n + 1)) s)
    have hbelow : ∀ r, r ≤ n + 1 → Function.update x (n + 2) s r = x r := fun r hr =>
      Function.update_of_ne (by omega) ..
    refine ⟨Function.update x (n + 2) s, Function.update_self .., fun r h1 hr => ?_, ?_⟩
    · rw [hbelow r hr]
      obtain hlt | rfl : r ≤ n ∨ r = n + 1 := by omega
      · rw [hbelow _ (by omega), hround r h1 hlt]
      · rw [Function.update_self, hstart]
    · rw [hbelow 1 (by omega), hend]
      rfl

/-- Settles O14: the states of `encryptTrace`, the last of which is `encryptBlock`. -/
theorem encbRunsTenRounds : Obligations.EncbRunsTenRounds := fun s =>
  ⟨fun hv =>
      ⟨encryptTrace s.rk s.state, rfl, fun _ => encryptTrace_round s.rk s.state, rfl, exec_encb_of_schedValid hv⟩,
    exec_encb_of_not_schedValid⟩

/-- Settles O15: the sequence of the nine inverse rounds, followed by the last one. -/
theorem decbRunsInverseRounds : Obligations.DecbRunsInverseRounds := by
  refine fun s => ⟨fun hv => ?_, exec_decb_of_not_schedValid⟩
  obtain ⟨x, hstart, hround, hend⟩ :=
    exists_decryptRounds_trace s.rk 9 (addRoundKey s.state (roundKey s.rk 10))
  have habove : ∀ r, 1 ≤ r → Function.update x 0 (decryptBlock s.state s.rk) r = x r := fun r hr =>
    Function.update_of_ne (by omega) ..
  refine ⟨Function.update x 0 (decryptBlock s.state s.rk), ?_, fun r h1 h9 => ?_, ?_, ?_⟩
  · rw [habove 10 (by omega), hstart]
  · rw [habove r h1, habove (r + 1) (by omega), hround r h1 h9]
    rfl
  · rw [Function.update_self, habove 1 le_rfl, hend]
    rfl
  · rw [Function.update_self]
    exact exec_decb_of_schedValid hv

/-! ### The laws of R137 in the other direction -/

theorem sbox_invSbox : ∀ x : Byte, sbox (invSbox x) = x := by decide

theorem subBytes_invSubBytes (s : Block) : subBytes (invSubBytes s) = s :=
  block_ext fun k hk => by rw [blockByte_subBytes _ hk, blockByte_invSubBytes _ hk, sbox_invSbox]

/-- R133 after R132: column `c` of row `r` comes from `r` columns to the right, which comes from `c` again. -/
theorem shiftRows_invShiftRows (s : Block) : shiftRows (invShiftRows s) = s := by
  refine block_ext_rows fun c r hc hr => ?_
  have hback : ((c + r) % 4 + 4 - r) % 4 = c := by omega
  rw [blockByte_shiftRows _ hc hr, blockByte_invShiftRows _ (Nat.mod_lt _ (by decide)) hr, hback]

theorem mixCoefficients_mul_invMixCoefficients :
    mulColumn mixCoefficients invMixCoefficients = ⟨0x01, 0x00, 0x00, 0x00⟩ := by decide

theorem mixColumn_invMixColumn (a : Column) : mixColumn (invMixColumn a) = a := by
  rw [mixColumn_eq_mulColumn, invMixColumn_eq_mulColumn, ← mulColumn_assoc, mixCoefficients_mul_invMixCoefficients,
    mulColumn_one]

theorem mixColumns_invMixColumns (s : Block) : mixColumns (invMixColumns s) = s := by
  simp only [invMixColumns, mixColumns, mixColumn_invMixColumn]

/-! ### The rounds cancel -/

theorem invSubBytes_invShiftRows_shiftRows_subBytes (s : Block) :
    invSubBytes (invShiftRows (shiftRows (subBytes s))) = s := by
  rw [invShiftRows_shiftRows, invSubBytes_subBytes]

theorem shiftRows_subBytes_invSubBytes_invShiftRows (s : Block) :
    shiftRows (subBytes (invSubBytes (invShiftRows s))) = s := by
  rw [subBytes_invSubBytes, shiftRows_invShiftRows]

/-- An inverse round takes the substituted and shifted state after a forward round to that before it. -/
theorem decryptRound_shiftRows_subBytes_encryptRound (k s : Block) :
    decryptRound k (shiftRows (subBytes (encryptRound k s))) = shiftRows (subBytes s) := by
  rw [decryptRound, invSubBytes_invShiftRows_shiftRows_subBytes, encryptRound, addRoundKey_addRoundKey,
    invMixColumns_mixColumns]

/-- A forward round takes the inverse substituted and shifted state after an inverse round to that before it. -/
theorem encryptRound_invSubBytes_invShiftRows_decryptRound (k s : Block) :
    encryptRound k (invSubBytes (invShiftRows (decryptRound k s))) = invSubBytes (invShiftRows s) := by
  rw [encryptRound, shiftRows_subBytes_invSubBytes_invShiftRows, decryptRound, mixColumns_invMixColumns,
    addRoundKey_addRoundKey]

theorem decryptRounds_shiftRows_subBytes_encryptRounds (rk : Schedule) (n : Nat) (s : Block) :
    decryptRounds rk n (shiftRows (subBytes (encryptRounds rk n s))) = shiftRows (subBytes s) := by
  induction n with
  | zero => rfl
  | succ n ih => rw [encryptRounds, decryptRounds, decryptRound_shiftRows_subBytes_encryptRound, ih]

theorem encryptRounds_invSubBytes_invShiftRows_decryptRounds (rk : Schedule) (n : Nat) (s : Block) :
    encryptRounds rk n (invSubBytes (invShiftRows (decryptRounds rk n s))) = invSubBytes (invShiftRows s) := by
  induction n generalizing s with
  | zero => rfl
  | succ n ih => rw [decryptRounds, encryptRounds, ih, encryptRound_invSubBytes_invShiftRows_decryptRound]

theorem decryptBlock_encryptBlock (s : Block) (rk : Schedule) : decryptBlock (encryptBlock s rk) rk = s := by
  rw [decryptBlock, encryptBlock, encryptLast, addRoundKey_addRoundKey, decryptRounds_shiftRows_subBytes_encryptRounds,
    decryptLast, invSubBytes_invShiftRows_shiftRows_subBytes, addRoundKey_addRoundKey]

theorem encryptBlock_decryptBlock (s : Block) (rk : Schedule) : encryptBlock (decryptBlock s rk) rk = s := by
  rw [encryptBlock, decryptBlock, decryptLast, addRoundKey_addRoundKey,
    encryptRounds_invSubBytes_invShiftRows_decryptRounds, encryptLast, shiftRows_subBytes_invSubBytes_invShiftRows,
    addRoundKey_addRoundKey]

theorem exec_decb_of_exec_encb {s t : State} (hv : s.schedValid = true) (h : exec .encb s = .next t) :
    exec .decb t = .next { s with err := .ok } := by
  have ht : { s with state := encryptBlock s.state s.rk, err := .ok } = t :=
    Host.Outcome.next.inj ((exec_encb_of_schedValid hv).symm.trans h)
  have htv : t.schedValid = true := ht ▸ hv
  rw [exec_decb_of_schedValid htv, ← ht, decryptBlock_encryptBlock]

theorem exec_encb_of_exec_decb {s t : State} (hv : s.schedValid = true) (h : exec .decb s = .next t) :
    exec .encb t = .next { s with err := .ok } := by
  have ht : { s with state := decryptBlock s.state s.rk, err := .ok } = t :=
    Host.Outcome.next.inj ((exec_decb_of_schedValid hv).symm.trans h)
  have htv : t.schedValid = true := ht ▸ hv
  rw [exec_encb_of_schedValid htv, ← ht, encryptBlock_decryptBlock]

/-- Settles O16: the pipelines are inverse under every schedule, so the preimage of a block is its decryption. -/
theorem encbAndDecbAreInverse : Obligations.EncbAndDecbAreInverse := by
  refine ⟨fun s t hv => ⟨exec_decb_of_exec_encb hv, exec_encb_of_exec_decb hv⟩, fun k b =>
    ⟨decryptBlock_encryptBlock b _, encryptBlock_decryptBlock b _, decryptBlock b (expand k),
      encryptBlock_decryptBlock b _, ?_⟩⟩
  rintro a' rfl
  exact (decryptBlock_encryptBlock a' _).symm

end Sys2Proof.Machine
end

section
/-! PROOF. The byte streams of the CBC engine, byte by byte: what CBCE writes (spec/44_cbc_engine.md R161, R164), what
CBCD recovers (R165, R166), and what each leaves in OUT_BUF. -/

namespace Sys2Proof.Machine

theorem bytesOfBlocks_getElem_of_getElem {bs : List Block} {b : Block} {i k : Nat} (h : bs[i]? = some b)
    (hk : k < 16) : (bytesOfBlocks bs)[16 * i + k]? = some (blockByte b k) := by
  obtain ⟨hi, rfl⟩ := List.getElem?_eq_some_iff.mp h
  exact bytesOfBlocks_getElem bs hi hk

/-! ### OUT_BUF after a sequence write at offset 0 -/

theorem outBufRam_of_writeBytes {s t : State} {l : List Byte} (hb : t.outBuf = Memory.writeBytes s.outBuf 0 l)
    (he : t.epoch = s.epoch) (j : Nat) : outBufRam t j = l.getD j (outBufRam s j) := by
  rw [outBufRam, hb, he, Memory.lookup_writeBytes, List.getD_eq_getElem?_getD]
  by_cases hj : j < l.length
  · simp [hj]
  · simp [hj, outBufRam]

theorem outBufRam_cbceFinish (iv : Block) (s : State) (j : Nat) :
    outBufRam (cbceFinish iv s) j = (cbceStream iv s).getD j (outBufRam s j) :=
  outBufRam_of_writeBytes (cbceFinish_outBuf iv s) (cbceFinish_epoch iv s) j

theorem outBufRam_cbcdFinish (p : List Byte) (s : State) (j : Nat) :
    outBufRam (cbcdFinish p s) j = (unpad p).getD j (outBufRam s j) :=
  outBufRam_of_writeBytes (cbcdFinish_outBuf p s) (cbcdFinish_epoch p s) j

theorem outBufByte_of_lt_outLen {s : State} {j : Nat} (h : j < s.outLen.toNat) : outBufByte s j = outBufRam s j :=
  if_pos h

/-! ### The stream of CBCE -/

/-- R161: byte `j` of the padded message. -/
def paddedByte (s : State) (j : Nat) : Byte :=
  if j < s.inLen.toNat then inBufByte s j else BitVec.ofNat 8 (16 - s.inLen.toNat % 16)

theorem pad_inBufBytes_getElem (s : State) {j : Nat} (hj : j < 16 * (s.inLen.toNat / 16 + 1)) :
    (pad (inBufBytes s 0 s.inLen.toNat))[j]? = some (paddedByte s j) := by
  rw [pad_getElem _ (by simpa [pad_length] using hj), inBufBytes_length, paddedByte]
  split
  · next h => simp [inBufBytes_getElem s 0 _ h]
  · rfl

/-- Byte `k` of ciphertext block `i`, in the stream that begins with the chain value. -/
theorem bytesOfBlocks_cbcEncrypt_getElem (rk : Schedule) (iv : Block) (ms : List Block) {i k : Nat}
    (hi : i < ms.length) (hk : k < 16) :
    (bytesOfBlocks (iv :: cbcEncrypt rk iv ms))[16 + 16 * i + k]? =
      some (blockByte (encryptBlock (blockOf fun j => blockByte ms[i] j ^^^
        (bytesOfBlocks (iv :: cbcEncrypt rk iv ms)).getD (16 * i + j) 0x00#8) rk) k) := by
  have hblock := cbcEncrypt_getElem rk iv ms i hi
  rw [← List.getElem?_cons_succ (a := iv)] at hblock
  rw [show 16 + 16 * i + k = 16 * (i + 1) + k by omega, bytesOfBlocks_getElem_of_getElem hblock hk]
  congr 3
  refine blockOf_congr fun j hj => ?_
  have hi' : i < (iv :: cbcEncrypt rk iv ms).length := by simpa using Nat.lt_succ_of_lt hi
  rw [List.getD_eq_getElem?_getD, bytesOfBlocks_getElem _ hi' hj, List.getElem?_eq_getElem hi', Option.getD_some,
    Option.getD_some]

/-- R164 step 3: the stream begins with the IV. -/
theorem cbceStream_getElem_iv (iv : Block) (s : State) {k : Nat} (hk : k < 16) :
    (cbceStream iv s)[k]? = some (blockByte iv k) := by
  rw [cbceStream_eq]
  simpa using bytesOfBlocks_getElem_of_getElem (i := 0) List.getElem?_cons_zero hk

/-- R164 step 4: byte `k` of ciphertext block `i`. -/
theorem cbceStream_getElem_block (iv : Block) (s : State) {i k : Nat} (hi : i < s.inLen.toNat / 16 + 1)
    (hk : k < 16) :
    (cbceStream iv s)[16 + 16 * i + k]? =
      some (blockByte (encryptBlock (blockOf fun j => paddedByte s (16 * i + j) ^^^
        (cbceStream iv s).getD (16 * i + j) 0x00#8) (expand s.key)) k) := by
  have hms := blocksOfBytes_getElem _ (pad (inBufBytes s 0 s.inLen.toNat)) hi
  rw [List.getElem?_eq_getElem (by simpa using hi), Option.some.injEq] at hms
  rw [cbceStream_eq, bytesOfBlocks_cbcEncrypt_getElem _ _ _ (by simpa using hi) hk, hms]
  congr 3
  refine blockOf_congr fun j hj => ?_
  rw [blockByte_blockOf _ hj, List.getD_eq_getElem?_getD, pad_inBufBytes_getElem s (by omega), Option.getD_some]

/-- R164: what the end of a CBCE changes. -/
theorem cbceFinish_frame (iv : Block) (s : State) :
    cbceFinish iv s =
      { s with outBuf := (cbceFinish iv s).outBuf, outLen := (cbceFinish iv s).outLen, rk := expand s.key,
               schedValid := true, cbcst := .done, err := .ok, rngPending := false } := by
  rw [cbceFinish_outBuf, cbceFinish_outLen]
  simp only [cbceFinish, setErr, installSchedule, outBufWrite]

section cbceFinish
variable (iv : Block) {s : State} (h : s.inLen.toNat ≤ inCapBytes s.inCap)
include h

/-- R164 step 5; the 32-bit counter does not wrap, because IN_LEN is at most IN_CAP. -/
theorem cbceFinish_outLen_toNat : (cbceFinish iv s).outLen.toNat = 16 + 16 * (s.inLen.toNat / 16 + 1) := by
  have hcap := (inCapBytes_bounds s.inCap).2
  exact (BitVec.toNat_ofNat _ _).trans (Nat.mod_eq_of_lt (by omega))

theorem outBufByte_cbceFinish {j : Nat} (hj : j < 16 + 16 * (s.inLen.toNat / 16 + 1)) :
    outBufByte (cbceFinish iv s) j = (cbceStream iv s).getD j 0x00#8 := by
  rw [outBufByte_of_lt_outLen (by rwa [cbceFinish_outLen_toNat iv h]), outBufRam_cbceFinish,
    List.getD_eq_getElem _ _ (by simpa using hj), List.getD_eq_getElem _ _ (by simpa using hj)]

theorem outBufByte_cbceFinish_iv {k : Nat} (hk : k < 16) : outBufByte (cbceFinish iv s) k = blockByte iv k := by
  rw [outBufByte_cbceFinish iv h (by omega), List.getD_eq_getElem?_getD, cbceStream_getElem_iv iv s hk,
    Option.getD_some]

theorem outBufByte_cbceFinish_block {i k : Nat} (hi : i < s.inLen.toNat / 16 + 1) (hk : k < 16) :
    outBufByte (cbceFinish iv s) (16 + 16 * i + k) =
      blockByte (encryptBlock (blockOf fun j => paddedByte s (16 * i + j) ^^^
        outBufByte (cbceFinish iv s) (16 * i + j)) (expand s.key)) k := by
  rw [outBufByte_cbceFinish iv h (by omega), List.getD_eq_getElem?_getD, cbceStream_getElem_block iv s hi hk,
    Option.getD_some]
  congr 2
  exact blockOf_congr fun j hj => by rw [outBufByte_cbceFinish iv h (by omega)]

theorem outBufRam_cbceFinish_of_outLen_le {j : Nat} (hj : (cbceFinish iv s).outLen.toNat ≤ j) :
    outBufRam (cbceFinish iv s) j = outBufRam s j := by
  rw [cbceFinish_outLen_toNat iv h] at hj
  rw [outBufRam_cbceFinish, List.getD_eq_default _ _ (by simpa using hj)]

end cbceFinish

/-! ### The message CBCD recovers -/

/-- The 16 bytes of IN_BUF from offset `a` on. -/
def inBufBlock (s : State) (a : Nat) : Block := blockOf fun j => inBufByte s (a + j)

theorem blockByte_inBufBlock (s : State) (a : Nat) {k : Nat} (hk : k < 16) :
    blockByte (inBufBlock s a) k = inBufByte s (a + k) :=
  blockByte_blockOf _ hk

theorem blockOfBytes_inBufBytes (s : State) (a : Nat) : blockOfBytes (inBufBytes s a 16) = inBufBlock s a :=
  blockOf_congr fun j hj => by rw [List.getD_eq_getElem?_getD, inBufBytes_getElem s a 16 hj, Option.getD_some]

theorem blocksOfBytes_inBufBytes_getElem (s : State) (a : Nat) {i n : Nat} (hi : i < n) :
    (blocksOfBytes n (inBufBytes s a (16 * n)))[i]? = some (inBufBlock s (a + 16 * i)) := by
  rw [blocksOfBytes_getElem n _ hi]
  congr 1
  refine blockOf_congr fun j hj => ?_
  rw [List.getD_eq_getElem?_getD, inBufBytes_getElem s a _ (by omega), Option.getD_some, Nat.add_assoc]

/-- The stream block before ciphertext block `i` is the IV or ciphertext block `i - 1`. -/
theorem cons_blocksOfBytes_inBufBytes_getElem (s : State) {i n : Nat} (hi : i < n) :
    (blockOfBytes (inBufBytes s 0 16) :: blocksOfBytes n (inBufBytes s 16 (16 * n)))[i]? =
      some (inBufBlock s (16 * i)) := by
  cases i with
  | zero => exact congrArg some (blockOfBytes_inBufBytes s 0)
  | succ i =>
    rw [List.getElem?_cons_succ, blocksOfBytes_inBufBytes_getElem s 16 (Nat.lt_of_succ_lt hi),
      show 16 + 16 * i = 16 * (i + 1) by omega]

/-- R166 step 4: recovered block `i`, from the two stream blocks it depends on. -/
theorem cbcDecrypt_inBufBytes_getElem (rk : Schedule) (s : State) {i n : Nat} (hi : i < n) :
    (cbcDecrypt rk (blockOfBytes (inBufBytes s 0 16)) (blocksOfBytes n (inBufBytes s 16 (16 * n))))[i]? =
      some (xorBlock (decryptBlock (inBufBlock s (16 + 16 * i)) rk) (inBufBlock s (16 * i))) := by
  have hi' : i < (blocksOfBytes n (inBufBytes s 16 (16 * n))).length := by simpa using hi
  have hcs := blocksOfBytes_inBufBytes_getElem s 16 hi
  rw [List.getElem?_eq_getElem hi', Option.some.injEq] at hcs
  rw [cbcDecrypt_getElem rk _ _ i hi', hcs, cons_blocksOfBytes_inBufBytes_getElem s hi, Option.getD_some]

/-- Byte `k` of recovered block `i`. -/
theorem cbcdRecovered_getElem (s : State) {i k : Nat} (hi : i < (s.inLen.toNat - 16) / 16) (hk : k < 16) :
    (cbcdRecovered s)[16 * i + k]? =
      some (blockByte (decryptBlock (inBufBlock s (16 + 16 * i)) (expand s.key)) k ^^^ inBufByte s (16 * i + k)) := by
  rw [cbcdRecovered, bytesOfBlocks_getElem_of_getElem (cbcDecrypt_inBufBytes_getElem _ s hi) hk,
    blockByte_xorBlock _ _ hk, blockByte_inBufBlock s _ hk]

theorem cbcdRecovered_length_of_wellShaped {s : State} (hs : (s.inLen.toNat - 16) % 16 = 0) :
    (cbcdRecovered s).length = s.inLen.toNat - 16 := by
  rw [cbcdRecovered_length]
  omega

theorem lastByte_eq_of_getElem {q : List Byte} {v : Byte} (h : q[q.length - 1]? = some v) : lastByte q = v := by
  rw [lastByte, List.getD_eq_getElem?_getD, h, Option.getD_some]

@[simp] theorem unpad_length (p : List Byte) : (unpad p).length = p.length - (lastByte p).toNat := by simp [unpad]

theorem unpad_getElem {p : List Byte} {j : Nat} (h : j < p.length - (lastByte p).toNat) : (unpad p)[j]? = p[j]? :=
  List.getElem?_take_of_lt h

/-- R166 step 6: what the end of a CBCD with valid padding changes. -/
theorem cbcdFinish_frame (p : List Byte) (s : State) :
    cbcdFinish p s =
      { s with outBuf := (cbcdFinish p s).outBuf, outLen := (cbcdFinish p s).outLen, cbcst := .done, err := .ok } := by
  rw [cbcdFinish_outBuf, cbcdFinish_outLen]
  simp only [cbcdFinish, setErr, outBufWrite]

section cbcdFinish
variable {p : List Byte} {s : State} (h : p.length < 2 ^ 32)
include h

theorem cbcdFinish_outLen_toNat : (cbcdFinish p s).outLen.toNat = (unpad p).length :=
  (BitVec.toNat_ofNat _ _).trans ((Nat.mod_eq_of_lt (by omega)).trans (unpad_length p).symm)

theorem outBufByte_cbcdFinish {j : Nat} (hj : j < (unpad p).length) :
    outBufByte (cbcdFinish p s) j = (unpad p)[j] := by
  rw [outBufByte_of_lt_outLen (by rwa [cbcdFinish_outLen_toNat h]), outBufRam_cbcdFinish, List.getD_eq_getElem _ _ hj]

theorem outBufRam_cbcdFinish_of_outLen_le {j : Nat} (hj : (cbcdFinish p s).outLen.toNat ≤ j) :
    outBufRam (cbcdFinish p s) j = outBufRam s j := by
  rw [cbcdFinish_outLen_toNat h] at hj
  rw [outBufRam_cbcdFinish, List.getD_eq_default _ _ hj]

end cbcdFinish

end Sys2Proof.Machine
end

section
/-! PROOF. The CBC commands (spec/44_cbc_engine.md): what CBCE and CBCD answer in each case (R163 to R166, R172), how
long their results are (R170), and that CBCD undoes CBCE (R169), because decrypt_block undoes encrypt_block and the
padding says how long it is. -/

namespace Sys2Proof.Machine

/-! ### The answers of CBCE -/

section cbce
variable {s : State}

theorem exec_cbce_of_inLen_gt (h : inCapBytes s.inCap < s.inLen.toNat) :
    exec .cbce s = .next { s with err := .lengthRange, outLen := 0, cbcst := .idle } := by
  rcases execCbce_cases s with ⟨_, e⟩ | ⟨hl, _⟩ | ⟨hl, _⟩
  · exact e
  all_goals exact absurd h hl.not_gt

theorem exec_cbce_of_keyLen_ne (hl : s.inLen.toNat ≤ inCapBytes s.inCap) (hk : s.keyLen ≠ 0x10) :
    exec .cbce s = .next { s with err := .invalidKeyLength, outLen := 0, cbcst := .idle } := by
  rcases execCbce_cases s with ⟨hgt, _⟩ | ⟨_, _, e⟩ | ⟨_, h16, _⟩
  · exact absurd hl hgt.not_ge
  · exact e
  · exact absurd h16 hk

theorem exec_cbce_of_accepted (hl : s.inLen.toNat ≤ inCapBytes s.inCap) (hk : s.keyLen = 0x10) :
    exec .cbce s = cbceResume (rngRequest s) := by
  rcases execCbce_cases s with ⟨hgt, _⟩ | ⟨_, hne, _⟩ | ⟨_, _, e⟩
  · exact absurd hl hgt.not_ge
  · exact absurd hk hne
  · exact e

/-- The state in which an accepted CBCE has issued its request and polled once. -/
def cbcePolled (s : State) : State :=
  { rngRequest s with rngScript := (rngPoll s).2.rngScript, rngPolls := (rngPoll s).2.rngPolls }

/-- An answer at the first poll completes the CBCE. -/
theorem exec_cbce_of_answer {iv : Block} (hl : s.inLen.toNat ≤ inCapBytes s.inCap) (hk : s.keyLen = 0x10)
    (h : (rngPoll s).1 = some iv) : exec .cbce s = .next (cbceFinish iv (cbcePolled s)) := by
  obtain ⟨hanswer, hscript, hpolls⟩ := rngPoll_congr (rngRequest_rngScript s) (rngRequest_rngPolls s)
  rw [exec_cbce_of_accepted hl hk, cbceResume_of_some (hanswer.trans h), hscript, hpolls]
  rfl

/-- A CBCE without an error that no longer waits was accepted and answered. -/
theorem exec_cbce_ok {t : State} (h : exec .cbce s = .next t) (hp : t.rngPending = false) (he : t.err = .ok) :
    s.inLen.toNat ≤ inCapBytes s.inCap ∧
      ∃ iv u, t = cbceFinish iv u ∧ u.inLen = s.inLen ∧ u.inCap = s.inCap := by
  rcases execCbce_cases s with ⟨_, e⟩ | ⟨_, _, e⟩ | ⟨hl, _, e⟩
  · cases e.symm.trans h; cases he
  · cases e.symm.trans h; cases he
  · obtain ⟨script, polls, e' | ⟨iv, e'⟩⟩ := cbceResume_cases (rngRequest s) <;> cases e'.symm.trans (e.symm.trans h)
    · cases hp
    · exact ⟨hl, iv, _, rfl, rfl, rfl⟩

end cbce

/-- Settles O17: the prechecks, and the stream that `cbceFinish` leaves in OUT_BUF. -/
theorem cbceWritesStream : Obligations.CbceWritesStream := by
  refine fun s => ⟨exec_cbce_of_inLen_gt, exec_cbce_of_keyLen_ne, fun iv hl hk hiv => ?_⟩
  have hl' : (cbcePolled s).inLen.toNat ≤ inCapBytes (cbcePolled s).inCap := hl
  exact ⟨_, exec_cbce_of_answer hl hk hiv, cbceFinish_frame iv (cbcePolled s), cbceFinish_outLen_toNat iv hl',
    fun _ => outBufByte_cbceFinish_iv iv hl', fun _ hi _ => outBufByte_cbceFinish_block iv hl' hi,
    fun _ => outBufRam_cbceFinish_of_outLen_le iv hl'⟩

/-! ### The answers of CBCD -/

section cbcd
variable {s : State}

theorem exec_cbcd_of_inLen_gt (h : inCapBytes s.inCap < s.inLen.toNat) :
    exec .cbcd s = .next { s with err := .lengthRange, outLen := 0, cbcst := .idle } := by
  rcases execCbcd_cases s with ⟨_, e⟩ | ⟨hl, _⟩ | ⟨hl, _⟩ | ⟨hl, _⟩ | ⟨hl, _⟩
  · exact e
  all_goals exact absurd h hl.not_gt

theorem exec_cbcd_of_keyLen_ne (hl : s.inLen.toNat ≤ inCapBytes s.inCap) (hk : s.keyLen ≠ 0x10) :
    exec .cbcd s = .next { s with err := .invalidKeyLength, outLen := 0, cbcst := .idle } := by
  rcases execCbcd_cases s with ⟨hgt, _⟩ | ⟨_, _, e⟩ | ⟨_, h16, _⟩ | ⟨_, h16, _⟩ | ⟨_, h16, _⟩
  · exact absurd hl hgt.not_ge
  · exact e
  all_goals exact absurd h16 hk

section keyed
variable (hl : s.inLen.toNat ≤ inCapBytes s.inCap) (hk : s.keyLen = 0x10)
include hl hk

theorem exec_cbcd_of_malformed (hs : s.inLen.toNat < 32 ∨ (s.inLen.toNat - 16) % 16 ≠ 0) :
    exec .cbcd s = .next { s with err := .malformedCiphertext, outLen := 0, cbcst := .idle } := by
  rcases execCbcd_cases s with ⟨hgt, _⟩ | ⟨_, hne, _⟩ | ⟨_, _, _, e⟩ | ⟨_, _, h32, hmod, _⟩ | ⟨_, _, h32, hmod, _⟩
  · exact absurd hl hgt.not_ge
  · exact absurd hk hne
  · exact e
  all_goals omega

/-- A ciphertext of legal shape is decrypted; the padding decides between the two ends. -/
theorem exec_cbcd_of_wellShaped (h32 : 32 ≤ s.inLen.toNat) (hmod : (s.inLen.toNat - 16) % 16 = 0) :
    (paddingValid (cbcdRecovered s) = true →
      exec .cbcd s = .next (cbcdFinish (cbcdRecovered s) (installSchedule (expand s.key) s))) ∧
    (paddingValid (cbcdRecovered s) = false →
      exec .cbcd s = .next { s with err := .paddingInvalid, outLen := 0, cbcst := .rejected, rk := expand s.key,
                                    schedValid := true }) := by
  rcases execCbcd_cases s with ⟨hgt, _⟩ | ⟨_, hne, _⟩ | ⟨_, _, hs, _⟩ | ⟨_, _, _, _, hp, e⟩ | ⟨_, _, _, _, hp, e⟩
  · exact absurd hl hgt.not_ge
  · exact absurd hk hne
  · omega
  · exact ⟨fun hv => by simp [hp] at hv, fun _ => e⟩
  · exact ⟨fun _ => e, fun hv => by simp [hp] at hv⟩

end keyed

/-- A CBCD without an error recovered a message with valid padding from a ciphertext of legal shape. -/
theorem exec_cbcd_ok {t : State} (h : exec .cbcd s = .next t) (he : t.err = .ok) :
    (s.inLen.toNat - 16) % 16 = 0 ∧ paddingValid (cbcdRecovered s) = true ∧
      t = cbcdFinish (cbcdRecovered s) (installSchedule (expand s.key) s) := by
  rcases execCbcd_cases s with ⟨_, e⟩ | ⟨_, _, e⟩ | ⟨_, _, _, e⟩ | ⟨_, _, _, _, _, e⟩ | ⟨_, _, _, hmod, hp, e⟩ <;>
    cases e.symm.trans h
  case inr.inr.inr.inr => exact ⟨hmod, hp, rfl⟩
  all_goals cases he

end cbcd

/-- Settles O21: a length below 32 or not a multiple of 16 fails the check on the ciphertext's shape. -/
theorem cbcdRejectsBadLength : Obligations.CbcdRejectsBadLength := by
  intro s hl hk hs
  exact ⟨_, exec_cbcd_of_malformed hl hk (by omega), rfl, rfl, rfl, rfl⟩

/-! ### Padding and the recovered message -/

/-- R165 of a message given by its bytes. -/
theorem paddingValid_iff_of_getElem {q : List Byte} {p : Nat → Byte} (hpos : 0 < q.length)
    (hq : ∀ j < q.length, q[j]? = some (p j)) :
    paddingValid q = true ↔ 1 ≤ (p (q.length - 1)).toNat ∧ (p (q.length - 1)).toNat ≤ 16 ∧
      ∀ j, q.length - (p (q.length - 1)).toNat ≤ j → j < q.length → (p j).toNat = (p (q.length - 1)).toNat := by
  rw [paddingValid_iff, lastByte_eq_of_getElem (hq _ (by omega))]
  refine and_congr_right fun _ => and_congr_right fun _ => forall₂_congr fun j _ => forall_congr' fun hj => ?_
  rw [hq j hj, Option.some.injEq, BitVec.toNat_inj]

/-- R166 step 4 fixes every recovered byte: a sequence that meets it is the recovered message. -/
theorem cbcdRecovered_getElem_of_recovers {s : State} {p : Nat → Byte} (hmod : (s.inLen.toNat - 16) % 16 = 0)
    (hp : ∀ i, i < (s.inLen.toNat - 16) / 16 → ∀ k, k < 16 →
      p (16 * i + k) =
        blockByte (decryptBlock (blockOf fun j => inBufByte s (16 + 16 * i + j)) (expand s.key)) k ^^^
          inBufByte s (16 * i + k)) :
    ∀ j < s.inLen.toNat - 16, (cbcdRecovered s)[j]? = some (p j) := by
  intro j hj
  have hi : j / 16 < (s.inLen.toNat - 16) / 16 := by omega
  have hk : j % 16 < 16 := Nat.mod_lt j (by decide)
  rw [← Nat.div_add_mod j 16, cbcdRecovered_getElem s hi hk, hp _ hi _ hk]
  rfl

/-- Settles O20: the prechecks, and with the recovered bytes the two ends that the padding decides between. -/
theorem cbcdRecoversPlaintext : Obligations.CbcdRecoversPlaintext := by
  refine fun s => ⟨exec_cbcd_of_inLen_gt, exec_cbcd_of_keyLen_ne, exec_cbcd_of_malformed,
    fun hl hk h32 hmod p hp n hn => ?_⟩
  have hlen := cbcdRecovered_length_of_wellShaped hmod
  have hbytes := cbcdRecovered_getElem_of_recovers hmod hp
  have hlast : s.inLen.toNat - 16 - 1 = s.inLen.toNat - 17 := by omega
  have hvalid := paddingValid_iff_of_getElem (q := cbcdRecovered s) (p := p) (by omega) (by rwa [hlen])
  rw [hlen, hlast, ← hn] at hvalid
  have hfits : (cbcdRecovered s).length < 2 ^ 32 := by omega
  obtain ⟨hgood, hbad⟩ := exec_cbcd_of_wellShaped hl hk h32 hmod
  refine ⟨fun h => ?_, fun h => hbad (by rwa [← hvalid, Bool.not_eq_true] at h)⟩
  have hplain : (unpad (cbcdRecovered s)).length = s.inLen.toNat - 16 - n := by
    rw [unpad_length, hlen, lastByte_eq_of_getElem (hbytes _ (by omega)), hn, hlen, hlast]
  refine ⟨_, hgood (hvalid.mpr h), cbcdFinish_frame _ _, (cbcdFinish_outLen_toNat hfits).trans hplain, fun j hj => ?_,
    fun j => outBufRam_cbcdFinish_of_outLen_le hfits⟩
  rw [cbcdFinish_outLen_toNat hfits] at hj
  have hj' := hj
  rw [unpad_length] at hj'
  rw [outBufByte_cbcdFinish hfits hj, ← Option.some.injEq, ← List.getElem?_eq_getElem hj, unpad_getElem hj',
    hbytes j (by omega)]

/-- R170: the length CBCE writes fits OUT_BUF. -/
theorem cbce_outLen {s t : State} (h : exec .cbce s = .next t) (hp : t.rngPending = false) (he : t.err = .ok) :
    t.outLen.toNat = 32 + 16 * (s.inLen.toNat / 16) ∧ t.outLen.toNat ≤ outCapBytes t.inCap := by
  obtain ⟨hl, iv, u, rfl, hlen, hcap⟩ := exec_cbce_ok h hp he
  rw [← hlen, ← hcap] at hl
  rw [cbceFinish_outLen_toNat iv hl, cbceFinish_inCap, outCapBytes, ← hlen]
  omega

/-- R170: the length CBCD writes is that of the ciphertext without its padding. -/
theorem cbcd_outLen {s t : State} (h : exec .cbcd s = .next t) (he : t.err = .ok) :
    ∃ n, 1 ≤ n ∧ n ≤ 16 ∧ t.outLen.toNat = s.inLen.toNat - 16 - n := by
  obtain ⟨hmod, hp, rfl⟩ := exec_cbcd_ok h he
  have hlen := cbcdRecovered_length_of_wellShaped hmod
  obtain ⟨h1, h16, _⟩ := (paddingValid_iff _).mp hp
  exact ⟨_, h1, h16, by rw [cbcdFinish_outLen_toNat (by omega), unpad_length, hlen]⟩

/-- Settles O24: the two lengths, and the bounds of a pad length between 1 and 16. -/
theorem cbcOutputLengths : Obligations.CbcOutputLengths := by
  refine ⟨fun s t => cbce_outLen, fun s t h he => ?_⟩
  obtain ⟨n, h1, h16, hlen⟩ := cbcd_outLen h he
  exact ⟨n, h1, h16, hlen, by omega, by omega⟩

/-! ### The round trip -/

/-- The chain values of the two directions are the same stream blocks. -/
theorem cbcDecrypt_cbcEncrypt (rk : Schedule) (chain : Block) (ms : List Block) :
    cbcDecrypt rk chain (cbcEncrypt rk chain ms) = ms := by
  induction ms generalizing chain with
  | nil => rfl
  | cons m ms ih => rw [cbcEncrypt, cbcDecrypt, decryptBlock_encryptBlock, xorBlock_self_right, ih]

/-- Joining the blocks of a sequence of whole blocks gives the sequence back. -/
theorem bytesOfBlocks_blocksOfBytes (n : Nat) (l : List Byte) (h : l.length = 16 * n) :
    bytesOfBlocks (blocksOfBytes n l) = l := by
  refine List.ext_getElem? fun j => ?_
  by_cases hj : j < 16 * n
  · have hblock := blocksOfBytes_getElem n l (i := j / 16) (by omega)
    rw [← Nat.div_add_mod j 16, bytesOfBlocks_getElem_of_getElem hblock (by omega), blockByte_blockOf _ (by omega),
      List.getD_eq_getElem _ _ (by omega), List.getElem?_eq_getElem]
  · rw [List.getElem?_eq_none (by simpa using hj), List.getElem?_eq_none (by omega)]

theorem padLength_bounds (len : Nat) : 1 ≤ padLength len ∧ padLength len ≤ 16 := by
  unfold padLength
  omega

/-- The pad byte is the pad length. -/
theorem lastByte_pad_toNat (m : List Byte) : (lastByte (pad m)).toNat = padLength m.length := by
  obtain ⟨h1, h16⟩ := padLength_bounds m.length
  have hlast : (pad m)[(pad m).length - 1]? = some (BitVec.ofNat 8 (padLength m.length)) := by
    simp only [pad, List.length_append, List.length_replicate]
    rw [List.getElem?_append_right (by omega), List.getElem?_replicate_of_lt (by omega)]
  rw [lastByte_eq_of_getElem hlast, BitVec.toNat_ofNat]
  omega

theorem unpad_pad (m : List Byte) : unpad (pad m) = m := by
  rw [unpad, lastByte_pad_toNat, pad, List.length_append, List.length_replicate, Nat.add_sub_cancel, List.take_left]

theorem paddingValid_pad (m : List Byte) : paddingValid (pad m) = true := by
  obtain ⟨h1, h16⟩ := padLength_bounds m.length
  have hbyte : lastByte (pad m) = BitVec.ofNat 8 (padLength m.length) :=
    BitVec.eq_of_toNat_eq (by rw [lastByte_pad_toNat, BitVec.toNat_ofNat]; omega)
  rw [paddingValid_iff, lastByte_pad_toNat]
  refine ⟨h1, h16, fun j hlo hhi => ?_⟩
  simp only [pad, List.length_append, List.length_replicate] at hlo hhi
  rw [hbyte, pad, List.getElem?_append_right (by omega), List.getElem?_replicate_of_lt (by omega)]

/-- IN_BUF bytes that agree with a list are that list. -/
theorem inBufBytes_eq_of_forall {s : State} {a n : Nat} {l : List Byte} (hn : l.length = n)
    (h : ∀ j < n, l[j]? = some (inBufByte s (a + j))) : inBufBytes s a n = l := by
  refine List.ext_getElem? fun j => ?_
  by_cases hj : j < n
  · rw [inBufBytes_getElem s a n hj, h j hj]
  · rw [List.getElem?_eq_none (by simpa using hj), List.getElem?_eq_none (by omega)]

/-- The message recovered from an IV and its ciphertext blocks, read from IN_BUF as one stream. -/
theorem cbcdRecovered_of_stream {s : State} {iv : Block} {cs : List Block}
    (hlen : s.inLen.toNat = 16 + 16 * cs.length)
    (h : ∀ j < s.inLen.toNat, (bytesOfBlocks (iv :: cs))[j]? = some (inBufByte s j)) :
    cbcdRecovered s = bytesOfBlocks (cbcDecrypt (expand s.key) iv cs) := by
  have hn : (s.inLen.toNat - 16) / 16 = cs.length := by omega
  have hiv : inBufBytes s 0 16 = blockBytes iv := inBufBytes_eq_of_forall rfl fun j hj => by
    rw [Nat.zero_add, ← h j (by omega), bytesOfBlocks_cons, List.getElem?_append_left (by simpa using hj)]
  have hcs : inBufBytes s 16 (16 * cs.length) = bytesOfBlocks cs :=
    inBufBytes_eq_of_forall (bytesOfBlocks_length cs) fun j hj => by
      rw [← h (16 + j) (by omega), bytesOfBlocks_cons, List.getElem?_append_right (by simp)]
      simp
  simp only [cbcdRecovered]
  rw [hn, hiv, hcs, blockOfBytes_blockBytes, blocksOfBytes_bytesOfBlocks]

/-- CBCD on what a CBCE with the same key left in OUT_BUF recovers the padded message. -/
theorem cbcdRecovered_of_cbceFinish {s s' : State} {iv : Block} (hl : s.inLen.toNat ≤ inCapBytes s.inCap)
    (hkey : s'.key = s.key) (hinLen : s'.inLen = (cbceFinish iv s).outLen)
    (hbuf : ∀ j, j < s'.inLen.toNat → inBufByte s' j = outBufByte (cbceFinish iv s) j) :
    cbcdRecovered s' = pad (inBufBytes s 0 s.inLen.toNat) := by
  have hlen : s'.inLen.toNat = (cbceStream iv s).length := by
    rw [hinLen, cbceFinish_outLen_toNat iv hl, cbceStream_length]
  have hstream : ∀ j < s'.inLen.toNat, (cbceStream iv s)[j]? = some (inBufByte s' j) := fun j hj => by
    rw [hbuf j hj, outBufByte_cbceFinish iv hl (by rwa [← cbceStream_length iv s, ← hlen]),
      List.getD_eq_getElem _ _ (hlen ▸ hj), List.getElem?_eq_getElem]
  rw [cbceStream_eq] at hstream
  rw [cbcdRecovered_of_stream (by simpa using hlen) hstream, hkey, cbcDecrypt_cbcEncrypt,
    bytesOfBlocks_blocksOfBytes _ _ (by simp [pad_length])]

/-- CBCD that recovers `pad m` gives `m` back. -/
theorem exec_cbcd_of_recovered_pad {s : State} {m : List Byte} (hl : s.inLen.toNat ≤ inCapBytes s.inCap)
    (hk : s.keyLen = 0x10) (h32 : 32 ≤ s.inLen.toNat) (hmod : (s.inLen.toNat - 16) % 16 = 0)
    (hm : cbcdRecovered s = pad m) :
    ∃ u, exec .cbcd s = .next u ∧ u.err = .ok ∧ u.cbcst = .done ∧ u.outLen.toNat = m.length ∧
      ∀ j < m.length, m[j]? = some (outBufByte u j) := by
  obtain ⟨hgood, -⟩ := exec_cbcd_of_wellShaped hl hk h32 hmod
  have hlen := cbcdRecovered_length_of_wellShaped hmod
  rw [hm] at hgood hlen
  have hfits : (pad m).length < 2 ^ 32 := by omega
  refine ⟨_, hgood (paddingValid_pad m), rfl, rfl, ?_, fun j hj => ?_⟩
  · rw [cbcdFinish_outLen_toNat hfits, unpad_pad]
  · have hj' : j < (unpad (pad m)).length := by rwa [unpad_pad]
    rw [outBufByte_cbcdFinish hfits hj', ← List.getElem?_eq_getElem hj', unpad_pad]

/-- Settles O23: CBCD recovers the padded message of the CBCE, whose padding is valid and comes off again. -/
theorem cbcRoundTrip : Obligations.CbcRoundTrip := by
  intro s iv hroom hk hiv
  have hl : (cbcePolled s).inLen.toNat ≤ inCapBytes (cbcePolled s).inCap := (Nat.le_add_right _ 32).trans hroom
  refine ⟨_, exec_cbce_of_answer hl hk hiv, rfl, fun s' hkey hkeyLen hcap hinLen hbuf => ?_⟩
  have hlen : s'.inLen.toNat = 16 + 16 * (s.inLen.toNat / 16 + 1) :=
    (congrArg BitVec.toNat hinLen).trans (cbceFinish_outLen_toNat iv hl)
  have hl' : s'.inLen.toNat ≤ inCapBytes s'.inCap := by
    rw [hcap, hlen]
    exact le_trans (by omega) hroom
  have hmsg : cbcdRecovered s' = pad (inBufBytes s 0 s.inLen.toNat) :=
    cbcdRecovered_of_cbceFinish hl hkey hinLen fun j hj => hbuf j (hinLen ▸ hj)
  obtain ⟨u, hu, herr, hcbcst, houtLen, hplain⟩ :=
    exec_cbcd_of_recovered_pad hl' (hkeyLen.trans hk) (by omega) (by omega) hmsg
  rw [inBufBytes_length] at houtLen hplain
  refine ⟨u, hu, herr, hcbcst, BitVec.eq_of_toNat_eq houtLen, fun j hj => ?_⟩
  rw [← Option.some.injEq, ← hplain j hj, inBufBytes_getElem s 0 _ hj, Nat.zero_add]

end Sys2Proof.Machine
end

section
/-! PROOF. The two host transactions (spec/45_host_bus.md R191, R192): the ranges of the map are its rows, what RD
returns is the byte of the row that holds the address, and WR to a writable row is that row's store. -/

namespace Sys2Proof.Machine

/-! ### The ranges of the map -/

/-- R51: the readable ranges cover exactly the rows of the map. -/
theorem mappedAddr_iff (cap : InCap) (n : Nat) :
    mappedAddr cap n ↔ ∃ r ∈ addressMap cap, r.base ≤ n ∧ n < r.base + r.size := by
  simp only [mappedAddr, addressMap, List.exists_mem_cons_iff, List.not_mem_nil, false_and, exists_false, or_false]
  omega

/-- R51: the writable ranges cover exactly the RW rows of the map. -/
theorem writableAddr_iff (cap : InCap) (n : Nat) :
    writableAddr cap n ↔ ∃ r ∈ addressMap cap, r.writable = true ∧ r.base ≤ n ∧ n < r.base + r.size := by
  simp only [writableAddr, addressMap, List.exists_mem_cons_iff, List.not_mem_nil, false_and, exists_false,
    Bool.false_eq_true, true_and, false_or, or_false]
  omega

/-! ### RD -/

/-- `value(a)` of R191 by the row that holds the address and the offset in it. -/
theorem hostRead_eq_some_iff {s : State} {a : Addr} {v : Byte} :
    hostRead s a = some v ↔
      ∃ r ∈ addressMap s.inCap, ∃ j, j < r.size ∧ a.toNat = r.base + j ∧ v = regionByte r.name j s := by
  constructor
  · intro h
    obtain ⟨r, hr, hv⟩ := Option.map_eq_some_iff.mp h
    obtain ⟨hm, hlo, hhi⟩ := locate_eq_some hr
    exact ⟨r, hm, a.toNat - r.base, by omega, by omega, hv.symm⟩
  · rintro ⟨r, hm, j, hj, ha, rfl⟩
    rw [hostRead_of_locate (locate_of_mem hm (by omega) (by omega)), ha, Nat.add_sub_cancel_left]

/-- A RD leaves `v` with the host, and all else as it was, exactly when `v` is the byte of the address. -/
theorem exec_rd_eq_next_iff {s : State} {a : Addr} {v : Byte} :
    exec (.rd a) s = .next { s with lastRead := some v } ↔ hostRead s a = some v := by
  refine ⟨fun h => ?_, exec_rd_of_hostRead⟩
  obtain ⟨u, hu, hs⟩ := execRd_next h
  have huv : some v = some u := congrArg State.lastRead hs
  exact hu.trans huv.symm

/-- R205: a RD off the map. -/
theorem exec_rd_of_not_mappedAddr {s : State} {a : Addr} (h : ¬ mappedAddr s.inCap a.toNat) :
    exec (.rd a) s = .fault (.busError a) := by
  have hl : locate s.inCap a = none := locate_eq_none fun r hr hc => h ((mappedAddr_iff _ _).mpr ⟨r, hr, hc⟩)
  change execRd a s = _
  rw [execRd, hostRead, hl]
  rfl

section rowShapes
variable {n b : Nat} {v : Byte}

/-- A row of one byte has the offset 0 alone. -/
theorem exists_lt_one_offset {f : Nat → Byte} : (∃ j, j < 1 ∧ n = b + j ∧ v = f j) ↔ n = b ∧ v = f 0 := by
  simp

/-- The RK window by round and byte (R51, R52). -/
theorem exists_rk_offset {rk : Schedule} :
    (∃ j, j < 176 ∧ n = b + j ∧ v = blockByte (roundKey rk (j / 16)) (j % 16)) ↔
      ∃ r k, r < 11 ∧ k < 16 ∧ n = b + 16 * r + k ∧ v = blockByte (roundKey rk r) k := by
  constructor
  · rintro ⟨j, hj, hn, hv⟩
    exact ⟨j / 16, j % 16, by omega, by omega, by omega, hv⟩
  · rintro ⟨r, k, hr, hk, hn, hv⟩
    have hdiv : (16 * r + k) / 16 = r := by omega
    have hmod : (16 * r + k) % 16 = k := by omega
    exact ⟨16 * r + k, by omega, by omega, by rw [hdiv, hmod]; exact hv⟩

/-- A ROM window of 256 bytes by the byte that indexes it. -/
theorem exists_byte_offset {rom : Byte → Byte} :
    (∃ j, j < 256 ∧ n = b + j ∧ v = rom (BitVec.ofNat 8 j)) ↔ ∃ x : Byte, n = b + x.toNat ∧ v = rom x := by
  constructor
  · rintro ⟨j, hj, hn, hv⟩
    exact ⟨BitVec.ofNat 8 j, by rwa [BitVec.toNat_ofNat, Nat.mod_eq_of_lt hj], hv⟩
  · rintro ⟨x, hn, hv⟩
    exact ⟨x.toNat, x.isLt, hn, by rwa [BitVec.ofNat_toNat, BitVec.setWidth_eq]⟩

end rowShapes

/-- Settles O27: RD returns the byte of the row that holds the address, and the rows, each by its own offsets, are the
clauses of the statement. -/
theorem rdReturnsMappedByte : Obligations.RdReturnsMappedByte := by
  refine fun s a => ⟨exec_rd_of_not_mappedAddr, fun v => ?_⟩
  rw [exec_rd_eq_next_iff, hostRead_eq_some_iff]
  simp only [addressMap, List.exists_mem_cons_iff, List.not_mem_nil, false_and, exists_false, or_false, regionByte,
    exists_lt_one_offset, exists_rk_offset, exists_byte_offset, countByte, outBufByte,
    BitVec.ofNat_eq_ofNat]

/-! ### WR -/

/-- R192: a WR inside a writable row is the store of that row at its offset. -/
theorem exec_wr_of_locate {s : State} {a : Addr} {name : RegionName} {base size : Nat} (v : Byte) (j : Nat)
    (hl : locate s.inCap a = some ⟨name, base, size, true⟩) (ha : a.toNat = base + j) :
    exec (.wr a v) s = storeRegion a name j v s := by
  change execWr a v s = _
  simp [execWr, hl, ha]

/-- R205: a WR off the writable rows. -/
theorem exec_wr_of_not_writableAddr {s : State} {a : Addr} (v : Byte) (h : ¬ writableAddr s.inCap a.toNat) :
    exec (.wr a v) s = .fault (.busError a) := by
  change execWr a v s = _
  unfold execWr
  split
  · rfl
  · next r hr =>
    obtain ⟨hm, hc⟩ := locate_eq_some hr
    exact if_neg fun hw => h ((writableAddr_iff _ _).mpr ⟨r, hm, hw, hc⟩)

theorem inBufByte_inBufWrite (s : State) (j : Nat) (v : Byte) (i : Nat) :
    inBufByte (inBufWrite j v s) i = if i = j then v else inBufByte s i := by
  simp only [inBufByte, inBufWrite, Memory.lookup_write]
  split <;> rfl

/-- Settles O29: the row of CMD is `cmdWriteRunsCommand`, every other row its store, whose bytes are those of the
one-byte writes of a counter, a block and IN_BUF. -/
theorem wrStoresByte : Obligations.WrStoresByte := by
  intro s a v
  refine ⟨exec_wr_of_not_writableAddr v, fun h => ?_, fun j hj h => ?_, fun h => ?_, fun h => ?_, fun h => ?_,
    fun h => ?_, fun k hk h => ?_, fun k hk h => ?_, fun j hj h => ?_⟩
  · obtain rfl : a = cmdAddr := BitVec.eq_of_toNat_eq h
    obtain ⟨hlegal, hillegal, _⟩ := cmdWriteRunsCommand s v
    exact ⟨hlegal, hillegal⟩
  · exact ⟨_, exec_wr_of_locate v j (locate_inLen hj h) h, fun i hi => countByte_setCountByte s.inLen v hi hj⟩
  · exact exec_wr_of_locate v 0 (locate_keyLen h) h
  · exact exec_wr_of_locate v 0 (locate_round h) h
  · exact exec_wr_of_locate v 0 (locate_opa h) h
  · exact exec_wr_of_locate v 0 (locate_opb h) h
  · exact ⟨_, exec_wr_of_locate v k (locate_key hk h) h, fun i hi => blockByte_setBlockByte s.key k v hi⟩
  · exact ⟨_, exec_wr_of_locate v k (locate_state hk h) h, fun i hi => blockByte_setBlockByte s.state k v hi⟩
  · exact ⟨_, exec_wr_of_locate v j (locate_inBuf hj h) h, rfl, inBufByte_inBufWrite s j v⟩

end Sys2Proof.Machine
end

section
/-! PROOF. Errors (spec/60_exceptions.md): BUS_ERROR is the answer exactly off the map (R205), a byte of no row of the
command table is ILLEGAL (R201), and each command answers the code of its first failing check (R203). -/

namespace Sys2Proof.Machine

/-! ### BUS_ERROR -/

/-- R191: a RD inside a row answers a next state. -/
theorem exec_rd_next_of_mappedAddr {s : State} {a : Addr} (h : mappedAddr s.inCap a.toNat) :
    ∃ t, exec (.rd a) s = .next t := by
  obtain ⟨r, hr, hlo, hhi⟩ := (mappedAddr_iff _ _).mp h
  exact ⟨_, exec_rd_of_hostRead (hostRead_of_locate (locate_of_mem hr hlo hhi))⟩

/-- R192: the `case` of WR has a store for every RW row of the map. -/
theorem storeRegion_next_of_writable {cap : InCap} {name : RegionName} {base size : Nat}
    (hr : ⟨name, base, size, true⟩ ∈ addressMap cap) (a : Addr) (j : Nat) (v : Byte) (s : State) :
    ∃ t, storeRegion a name j v s = .next t := by
  cases name
  case cmd =>
    obtain ⟨t, ht, _⟩ := executeCommand_next v { s with cmd := v }
    exact ⟨t, ht⟩
  case status | outLen | res | rk | sboxRom | invSboxRom | rconRom | outBuf => simp [mem_addressMap] at hr
  all_goals exact ⟨_, rfl⟩

/-- R192: a WR inside a RW row answers a next state. -/
theorem exec_wr_next_of_writableAddr {s : State} {a : Addr} (v : Byte) (h : writableAddr s.inCap a.toNat) :
    ∃ t, exec (.wr a v) s = .next t := by
  obtain ⟨⟨name, base, size, _⟩, hr, rfl, hlo, hhi⟩ := (writableAddr_iff _ _).mp h
  obtain ⟨t, ht⟩ := storeRegion_next_of_writable hr a (a.toNat - base) v s
  exact ⟨t, (exec_wr_of_locate v _ (locate_of_mem hr hlo hhi) (Nat.add_sub_of_le hlo).symm).trans ht⟩

/-- Settles O28: off the ranges the two faults, inside them a row that answers. -/
theorem busErrorExactlyOffTheMap : Obligations.BusErrorExactlyOffTheMap := fun _ _ v =>
  ⟨exec_rd_of_not_mappedAddr, exec_rd_next_of_mappedAddr, exec_wr_of_not_writableAddr v, exec_wr_next_of_writableAddr v⟩

/-! ### ILLEGAL -/

/-- R83: a byte of no row of the command table selects no command. -/
theorem decodeCommand_of_not_mem {v : Byte} (h : v ∉ commandTable.map Prod.fst) :
    decodeCommand v = .error (.illegalCommand v) := by
  have hnone : commandTable.lookup v = none := List.lookup_eq_none_iff.mpr fun p hp =>
    bne_iff_ne.mpr fun hv => h (hv ▸ List.mem_map_of_mem hp)
  simp [decodeCommand, hnone]

/-- Settles O32: the thirteen bytes are those of the command table, and a write of any other is ILLEGAL. -/
theorem illegalCommandEffect : Obligations.IllegalCommandEffect := by
  intro s v hv
  obtain ⟨_, hillegal, _⟩ := cmdWriteRunsCommand s v
  exact hillegal _ (decodeCommand_of_not_mem hv)

/-! ### The first failing check of each command -/

section codes
variable {s t : State}

/-- The commands without a check. -/
theorem exec_uncheckedCommand_err {i : Instr} (hi : i ∈ [Instr.gfmul, .subb, .isubb, .shr, .ishr, .mixc, .imixc])
    (h : exec i s = .next t) : t.err = .ok := by
  simp only [List.mem_cons, List.not_mem_nil, or_false] at hi
  rcases hi with rfl | rfl | rfl | rfl | rfl | rfl | rfl <;> cases h <;> rfl

theorem exec_keyexp_err (h : exec .keyexp s = .next t) :
    t.err = if s.keyLen ≠ 0x10 then .invalidKeyLength else .ok := by
  rcases execKeyexp_cases s with ⟨hk, e⟩ | ⟨hk, e⟩ <;> cases e.symm.trans h
  · exact (if_neg (not_not.mpr hk)).symm
  · exact (if_pos hk).symm

theorem exec_ark_err (h : exec .ark s = .next t) :
    t.err = if s.schedValid = false then .noSchedule else if 10 < s.round.toNat then .badOperand else .ok := by
  rcases execArk_cases s with ⟨hv, e⟩ | ⟨hv, hr, e⟩ | ⟨hv, hr, e⟩ <;> cases e.symm.trans h
  · simp [hv]
  · simp [hv, hr]
  · simp [hv, hr.not_gt]

theorem exec_blockCipher_err {i : Instr} (hi : i ∈ [Instr.encb, .decb]) (h : exec i s = .next t) :
    t.err = if s.schedValid = false then .noSchedule else .ok := by
  simp only [List.mem_cons, List.not_mem_nil, or_false] at hi
  rcases hi with rfl | rfl
  · rcases execEncb_cases s with ⟨hv, e⟩ | ⟨hv, e⟩ <;> cases e.symm.trans h <;> simp [hv]
  · rcases execDecb_cases s with ⟨hv, e⟩ | ⟨hv, e⟩ <;> cases e.symm.trans h <;> simp [hv]

/-- A poll that does not leave the CBCE waiting has completed it (R164). -/
theorem cbceResume_rngRequest_err (h : cbceResume (rngRequest s) = .next t) (hw : t.cbcst ≠ .chaining) :
    t.err = .ok := by
  obtain ⟨_, _, e | ⟨_, e⟩⟩ := cbceResume_cases (rngRequest s) <;> cases e.symm.trans h
  · exact absurd rfl hw
  · rfl

theorem exec_cbce_err (h : exec .cbce s = .next t) (hw : t.cbcst ≠ .chaining) :
    t.err = if inCapBytes s.inCap < s.inLen.toNat then .lengthRange
      else if s.keyLen ≠ 0x10 then .invalidKeyLength else .ok := by
  rcases execCbce_cases s with ⟨hl, e⟩ | ⟨hl, hk, e⟩ | ⟨hl, hk, e⟩
  · cases e.symm.trans h; simp [hl]
  · cases e.symm.trans h; simp [hl.not_gt, hk]
  · simp [cbceResume_rngRequest_err (e.symm.trans h) hw, hl.not_gt, hk]

theorem exec_cbcd_err (h : exec .cbcd s = .next t) :
    t.err = if inCapBytes s.inCap < s.inLen.toNat then .lengthRange
      else if s.keyLen ≠ 0x10 then .invalidKeyLength
      else if s.inLen.toNat < 32 ∨ (s.inLen.toNat - 16) % 16 ≠ 0 then .malformedCiphertext
      else if paddingValid (cbcdRecovered s) = false then .paddingInvalid else .ok := by
  rcases execCbcd_cases s with ⟨hl, e⟩ | ⟨hl, hk, e⟩ | ⟨hl, hk, hs, e⟩ | ⟨hl, hk, h32, hmod, hp, e⟩ |
    ⟨hl, hk, h32, hmod, hp, e⟩ <;> cases e.symm.trans h
  · simp [hl]
  · simp [hl.not_gt, hk]
  · simp [hl.not_gt, hk, hs]
  · simp [hl.not_gt, hk, h32.not_gt, hmod, hp]
  · simp [hl.not_gt, hk, h32.not_gt, hmod, hp, cbcdFinish]

theorem exec_wr_cmdAddr_err {v : Byte} {r : Reject} (hd : decodeCommand v = .error r)
    (h : exec (.wr cmdAddr v) s = .next t) : t.err = .illegalCommand := by
  obtain ⟨_, hillegal, _⟩ := cmdWriteRunsCommand s v
  cases (hillegal r hd).symm.trans h
  rfl

end codes

/-- Settles O41: the code of each command, from the cases of its answer. -/
theorem errorPrecedence : Obligations.ErrorPrecedence :=
  ⟨fun _ _ _ => exec_uncheckedCommand_err, fun _ _ => exec_keyexp_err, fun _ _ => exec_ark_err,
    fun _ _ _ => exec_blockCipher_err, fun _ _ => exec_cbce_err, fun _ _ => exec_cbcd_err,
    fun _ _ _ => exec_wr_cmdAddr_err⟩

end Sys2Proof.Machine
end

section
/-! PROOF. The schedule across a key change (spec/70_reset_and_hazards.md R236). Every instruction keeps RK and
SCHED_VALID, makes the schedule stale, or installs the expansion of a KEY it does not write: so only an expansion can
make SCHED_VALID rise. -/

namespace Sys2Proof.Machine

/-- RK and SCHED_VALID stand as they were. -/
structure ScheduleKept (s t : State) : Prop where
  rk : t.rk = s.rk
  valid : t.schedValid = s.schedValid

/-- R33, R236: RK holds the old schedule, which is no longer valid. -/
structure ScheduleStale (s t : State) : Prop where
  valid : t.schedValid = false
  rk : t.rk = s.rk

section effect
variable {s t : State}

/-- R162: a poll waits with the schedule as it was, or completes the CBCE. -/
theorem cbceResume_schedule (h : cbceResume s = .next t) : ScheduleKept s t ∨ ScheduleInstalled s t := by
  obtain ⟨_, _, e | ⟨_, e⟩⟩ := cbceResume_cases s <;> cases e.symm.trans h
  · exact .inl ⟨rfl, rfl⟩
  · exact .inr ⟨rfl, rfl⟩

theorem execCbce_schedule (h : execCbce s = .next t) : ScheduleKept s t ∨ ScheduleInstalled s t := by
  rcases execCbce_cases s with ⟨_, e⟩ | ⟨_, _, e⟩ | ⟨_, _, e⟩
  · cases e.symm.trans h; exact .inl ⟨rfl, rfl⟩
  · cases e.symm.trans h; exact .inl ⟨rfl, rfl⟩
  · exact (cbceResume_schedule (e.symm.trans h)).imp (fun ⟨hrk, hv⟩ => ⟨hrk, hv⟩) fun ⟨hrk, hv⟩ => ⟨hrk, hv⟩

theorem execCbcd_schedule (h : execCbcd s = .next t) : ScheduleKept s t ∨ ScheduleInstalled s t := by
  rcases execCbcd_cases s with ⟨_, e⟩ | ⟨_, _, e⟩ | ⟨_, _, _, e⟩ | ⟨_, _, _, _, _, e⟩ | ⟨_, _, _, _, _, e⟩ <;>
    cases e.symm.trans h
  case inr.inr.inr.inl => exact .inr ⟨rfl, rfl⟩
  case inr.inr.inr.inr => exact .inr ⟨rfl, rfl⟩
  all_goals exact .inl ⟨rfl, rfl⟩

theorem exec_blockCommand_schedule {i : Instr} (hc : isCommand i = true) (hn : runsCbc i = false)
    (h : exec i s = .next t) : ScheduleKept s t ∨ ScheduleInstalled s t := by
  rcases exec_blockCommand_cases hc hn h with ⟨_, e, _⟩ | ⟨e, _⟩ | ⟨_, e⟩ | ⟨_, _, e⟩ <;> rw [e]
  case inr.inr.inr => exact .inr ⟨rfl, rfl⟩
  all_goals exact .inl ⟨rfl, rfl⟩

/-- R33, R34: no command makes the schedule stale. -/
theorem exec_command_schedule {i : Instr} (hc : isCommand i = true) (h : exec i s = .next t) :
    ScheduleKept s t ∨ ScheduleInstalled s t := by
  cases i
  case cbce => exact execCbce_schedule h
  case cbcd => exact execCbcd_schedule h
  case rd => cases hc
  case wr => cases hc
  all_goals exact exec_blockCommand_schedule hc rfl h

theorem exec_command_rk {i : Instr} (hc : isCommand i = true) (h : exec i s = .next t) :
    ScheduleKept s t ∨ t.rk = expand t.key :=
  (exec_command_schedule hc h).imp_right fun ⟨hrk, _⟩ => by rw [hrk, (exec_command_operandsKept hc h).key]

theorem executeCommand_rk {v : Byte} (h : executeCommand v s = .next t) : ScheduleKept s t ∨ t.rk = expand t.key := by
  rcases executeCommand_cases h with ⟨i, _, hc, hi⟩ | ⟨_, e⟩
  · exact exec_command_rk hc hi
  · rw [e]; exact .inl ⟨rfl, rfl⟩

/-- R192: the rows of KEYLEN and KEY. -/
theorem exec_wr_scheduleStale {a : Addr} {v : Byte} (ha : a.toNat = 0xC ∨ (0x20 ≤ a.toNat ∧ a.toNat < 0x30))
    (h : exec (.wr a v) s = .next t) : ScheduleStale s t := by
  rcases ha with ha | ⟨hlo, hhi⟩
  · cases (exec_wr_of_locate v 0 (locate_keyLen ha) ha).symm.trans h
    exact ⟨rfl, rfl⟩
  · have ha : a.toNat = 0x20 + (a.toNat - 0x20) := (Nat.add_sub_of_le hlo).symm
    cases (exec_wr_of_locate v _ (locate_key (by omega) ha) ha).symm.trans h
    exact ⟨rfl, rfl⟩

/-- A WR runs the command of a CMD write, makes the schedule stale, or stores elsewhere. -/
theorem execWr_rk {a : Addr} {v : Byte} (h : execWr a v s = .next t) :
    ScheduleKept s t ∨ ScheduleStale s t ∨ t.rk = expand t.key := by
  rcases execWr_cases h with ⟨_, hc⟩ | ⟨_, _, _, e⟩ | ⟨_, e⟩ | ⟨_, e⟩ | ⟨_, e⟩ | ⟨_, e⟩ | ⟨_, _, _, e⟩ | ⟨_, _, _, e⟩ |
    ⟨_, _, _, e⟩
  case inl => exact (executeCommand_rk hc).imp (fun ⟨hrk, hv⟩ => ⟨hrk, hv⟩) .inr
  case inr.inr.inl => rw [e]; exact .inr (.inl ⟨rfl, rfl⟩)
  case inr.inr.inr.inr.inr.inr.inl => rw [e]; exact .inr (.inl ⟨rfl, rfl⟩)
  all_goals rw [e]; exact .inl ⟨rfl, rfl⟩

theorem exec_rk {i : Instr} (h : exec i s = .next t) :
    ScheduleKept s t ∨ ScheduleStale s t ∨ t.rk = expand t.key := by
  cases i
  case rd =>
    obtain ⟨_, _, e⟩ := execRd_next h
    rw [e]; exact .inl ⟨rfl, rfl⟩
  case wr => exact execWr_rk h
  all_goals exact (exec_command_rk rfl h).imp_right .inr

/-- R236: a schedule that becomes valid is the expansion of the key. -/
theorem exec_rk_of_schedValid_rises {i : Instr} (hs : s.schedValid = false) (h : exec i s = .next t)
    (ht : t.schedValid = true) : t.rk = expand t.key := by
  rcases exec_rk h with ⟨_, hv⟩ | ⟨hv, _⟩ | hrk
  · simp [hv, hs] at ht
  · simp [hv] at ht
  · exact hrk

/-- R136, R150, R151: the commands that use RK refuse a schedule that is not valid. -/
theorem exec_noSchedule {i : Instr} (hi : i ∈ [Instr.ark, .encb, .decb]) (hs : s.schedValid = false) :
    exec i s = .next { s with err := .noSchedule } := by
  simp only [List.mem_cons, List.not_mem_nil, or_false] at hi
  rcases hi with rfl | rfl | rfl
  · exact (arkXorsRoundKey s).1 hs
  · exact exec_encb_of_not_schedValid hs
  · exact exec_decb_of_not_schedValid hs

end effect

/-- Settles O42: the rows of KEY and KEYLEN, the refusals, and the one way SCHED_VALID can rise. -/
theorem keyChangeMakesScheduleStale : Obligations.KeyChangeMakesScheduleStale := by
  refine ⟨fun s t a v ha h => ?_, fun _ _ => exec_noSchedule, fun _ _ _ => exec_rk_of_schedValid_rises⟩
  obtain ⟨hv, hrk⟩ := exec_wr_scheduleStale ha h
  exact ⟨hv, hrk⟩

end Sys2Proof.Machine
end

section
/-! PROOF. The two encodings (spec/30_encoding.md): the decoder undoes the encoder for every instruction, and a code
that decodes is the encoding of what it decodes to (R81, R82, R88); the rows of the command table. -/

namespace Sys2Proof

theorem decodeTransaction_packTransaction_write (a : Addr) (v : Byte) :
    decodeTransaction (packTransaction 1#1 a v) = .ok (.wr a v) := by
  obtain ⟨hreserved, hwrites, haddr, hdata⟩ := fields_packTransaction 1#1 a v
  simp [decodeTransaction, hreserved, hwrites.mpr rfl, haddr, hdata]

theorem decodeTransaction_packTransaction_read (a : Addr) :
    decodeTransaction (packTransaction 0#1 a 0#8) = .ok (.rd a) := by
  obtain ⟨hreserved, hwrites, haddr, hdata⟩ := fields_packTransaction 0#1 a 0#8
  have hread : wordWrites (packTransaction 0#1 a 0#8) = false := by simpa using mt hwrites.mp (by decide)
  simp [decodeTransaction, hreserved, hread, haddr, hdata]

/-- R81 against R82: the fields of the encoder's rows are the bytes of the decoder's table. -/
theorem encode_of_decodeCommand {v : Byte} {i : Instr} (h : decodeCommand v = .ok i) : encode i = .command v := by
  have table : ∀ v : Byte, (decodeCommand v).toOption.all (fun i => encode i == .command v) = true := by decide
  simpa [h, Except.toOption] using table v

/-- R88, R89: a word that spells a transaction is packed from the fields of that transaction. -/
theorem encode_of_decodeTransaction {w : TransactionWord} {i : Instr} (h : decodeTransaction w = .ok i) :
    encode i = .transaction w := by
  unfold decodeTransaction at h
  split at h
  · cases h
  next hreserved =>
  have hw := word_eq_fields w (not_not.mp hreserved)
  split at h
  · next hwrites =>
    cases h
    rw [hwrites] at hw
    exact congrArg Code.transaction hw.symm
  · next hread =>
    split at h
    · cases h
    next hdata =>
    cases h
    rw [Bool.eq_false_iff.mpr hread, not_not.mp hdata] at hw
    exact congrArg Code.transaction hw.symm

/-- Settles O50: a command byte by the rows of the table, a transaction by the fields of its word. -/
theorem decodeEncode : Obligations.DecodeEncode := by
  intro i
  cases i
  case rd a => exact decodeTransaction_packTransaction_read a
  case wr a v => exact decodeTransaction_packTransaction_write a v
  all_goals rfl

/-- Settles O51: the two forms of a code. -/
theorem encodeDecode : Obligations.EncodeDecode := by
  intro c i h
  cases c with
  | command v => exact encode_of_decodeCommand h
  | transaction w => exact encode_of_decodeTransaction h

/-- Settles O53: a byte outside the table is refused, and each byte of the table selects the command of its row. -/
theorem thirteenCommandBytes : Obligations.ThirteenCommandBytes := by
  refine ⟨fun v => ⟨fun ⟨i, hi⟩ => ?_, fun hv => ?_⟩, rfl, rfl, rfl, rfl, rfl, rfl, rfl, rfl, rfl, rfl, rfl, rfl, rfl⟩
  · by_contra hv
    cases hi.symm.trans (Machine.decodeCommand_of_not_mem hv)
  · simp only [List.mem_cons, List.not_mem_nil, or_false] at hv
    rcases hv with rfl | rfl | rfl | rfl | rfl | rfl | rfl | rfl | rfl | rfl | rfl | rfl | rfl <;> exact ⟨_, rfl⟩

/-- Settles O54: the six bytes and the two words, evaluated. -/
theorem sampleWordsDecode : Obligations.SampleWordsDecode := by
  unfold Obligations.SampleWordsDecode
  decide

end Sys2Proof
end

section
/-! PROOF. The ROM tables (spec/40_galois_rom.md R104 to R107). The affine map of R107 undoes `affineInverse`, by which
the S-box hides the one inverse of its index. -/

namespace Sys2Proof.Machine

/-- R107: the affine map of the S-box. -/
def affineImage (y : Byte) : Byte :=
  y ^^^ y.rotateLeft 1 ^^^ y.rotateLeft 2 ^^^ y.rotateLeft 3 ^^^ y.rotateLeft 4 ^^^ 0x63#8

theorem affineImage_affineInverse : ∀ z : Byte, affineImage (affineInverse z) = z := by decide

theorem sbox_eq_affineImage_of_inverse {x y : Byte} (h : gmul x y = 1#8) : sbox x = affineImage y := by
  have hx : x ≠ 0 := by
    rintro rfl
    simp at h
  rw [gmul_inverse_unique (gmul_affineInverse_sbox x hx) h, affineImage_affineInverse]

/-- Settles O5: the inverse of a nonzero index is the one the S-box hides, and 0x00 stands for the inverse of 0x00. -/
theorem sboxIsAffineOfInverse : Obligations.SboxIsAffineOfInverse := by
  rintro x y (h | ⟨rfl, rfl⟩)
  · exact sbox_eq_affineImage_of_inverse h
  · rfl

theorem sbox_ne_self : ∀ x : Byte, sbox x ≠ x := by decide

/-- Settles O4: the tables undo each other, no entry is its own index, and the ROM entries evaluated. -/
theorem romTablesAgree : Obligations.RomTablesAgree :=
  ⟨fun x => ⟨invSbox_sbox x, sbox_invSbox x, sbox_ne_self x⟩, ⟨rfl, by decide⟩, rfl, rfl, rfl, rfl, rfl, rfl⟩

end Sys2Proof.Machine
end

section
/-! PROOF. The invariant of the block. It holds after every reset; a poll, each command and each host write keep it, so
every step does. The cases that write none of its fields keep it as it stands. -/

namespace Sys2Proof.Machine

/-- Settles O47: no schedule, no request, empty RAMs and OUT_LEN = 0. -/
theorem resetMeetsInv : Obligations.ResetMeetsInv where
  schedule h := nomatch h
  chaining := by decide
  accepted h := nomatch h
  inBufWf := .nil
  inBufWithin := List.forall_mem_nil _
  outBufWf := .nil
  outBufWithin := List.forall_mem_nil _
  outLenFits := Nat.zero_le _
  outLenWritten _ h := absurd h (Nat.not_lt_zero _)

theorem inv_hardReset (s : State) : Inv (hardReset s) :=
  { resetMeetsInv with
    accepted := nofun
    inBufWithin := List.forall_mem_nil _
    outBufWithin := List.forall_mem_nil _
    outLenFits := Nat.zero_le _ }

namespace Inv

variable {s t : State}

/-- R39, R57: a sequence written to OUT_BUF from offset 0 on, with its length in OUT_LEN, fits OUT_BUF and covers every
offset below OUT_LEN. -/
theorem output_of_writeBytes (h : Inv s) {l : List Byte} (hl : l.length ≤ outCapBytes s.inCap)
    (hbuf : t.outBuf = Memory.writeBytes s.outBuf 0 l) (hlen : t.outLen.toNat = l.length) :
    Memory.wf t.outBuf ∧ Memory.within t.outBuf (outCapBytes s.inCap) ∧ t.outLen.toNat ≤ outCapBytes s.inCap ∧
      ∀ j, j < t.outLen.toNat → (Memory.lookup t.outBuf j).isSome = true := by
  rw [hbuf, hlen]
  refine ⟨Memory.writeBytes_wf _ _ _ h.outBufWf, Memory.writeBytes_within _ _ _ _ h.outBufWithin (by simpa using hl), hl,
    fun j hj => ?_⟩
  simp [Memory.lookup_writeBytes, hj]

/-! ### The engine -/

/-- R33: the schedule of the declared key. -/
theorem installSchedule (h : Inv s) (hk : s.keyLen = 0x10#8) : Inv (installSchedule (expand s.key) s) :=
  { h with schedule := fun _ => ⟨hk, rfl⟩ }

/-- R163: a failing CBC command leaves the engine out of CHAINING and nothing to read. -/
theorem failCbc (h : Inv s) (hp : s.rngPending = false) (e : ErrCode) {st : CbcState} (hst : st ≠ .chaining) :
    Inv (failCbc e st s) :=
  { h with
    chaining := iff_of_false hst (by simp [hp])
    outLenFits := Nat.zero_le _
    outLenWritten := fun _ hj => absurd hj (Nat.not_lt_zero _) }

/-- R162: the request is issued past the prechecks. -/
theorem rngRequest (h : Inv s) (hk : s.keyLen = 0x10#8) (hl : s.inLen.toNat ≤ inCapBytes s.inCap) :
    Inv (rngRequest s) :=
  { h with
    chaining := iff_of_true rfl rfl
    accepted := fun _ => ⟨hk, hl⟩ }

/-- R164: the stream of an accepted CBCE fits OUT_BUF. -/
theorem cbceFinish (h : Inv s) (hk : s.keyLen = 0x10#8) (hl : s.inLen.toNat ≤ inCapBytes s.inCap) (iv : Block) :
    Inv (cbceFinish iv s) := by
  have hfits : (cbceStream iv s).length ≤ outCapBytes s.inCap := by
    rw [cbceStream_length, outCapBytes]
    omega
  obtain ⟨hwf, hwithin, hlen, hwritten⟩ := h.output_of_writeBytes hfits (cbceFinish_outBuf iv s)
    ((cbceFinish_outLen_toNat iv hl).trans (cbceStream_length iv s).symm)
  exact
    { h with
      schedule := fun _ => ⟨hk, rfl⟩
      chaining := iff_of_false (by simp) (by simp)
      accepted := nofun
      outBufWf := hwf
      outBufWithin := hwithin
      outLenFits := hlen
      outLenWritten := hwritten }

/-- R166 step 6: a recovered message is shorter than IN_CAP. -/
theorem cbcdFinish (h : Inv s) (hp : s.rngPending = false) {p : List Byte} (hl : p.length ≤ inCapBytes s.inCap) :
    Inv (cbcdFinish p s) := by
  have hcap := (inCapBytes_bounds s.inCap).2
  have hfits : (unpad p).length ≤ outCapBytes s.inCap := by
    rw [unpad_length, outCapBytes]
    omega
  obtain ⟨hwf, hwithin, hlen, hwritten⟩ := h.output_of_writeBytes hfits (cbcdFinish_outBuf p s)
    (cbcdFinish_outLen_toNat (by omega))
  exact
    { h with
      chaining := iff_of_false (by simp) (by simp [hp])
      outBufWf := hwf
      outBufWithin := hwithin
      outLenFits := hlen
      outLenWritten := hwritten }

/-! ### The instructions -/

/-- R162: a poll waits, or completes an accepted CBCE. -/
theorem cbceResume (h : Inv s) (hp : s.rngPending = true) (ht : cbceResume s = .next t) : Inv t := by
  obtain ⟨hk, hl⟩ := h.accepted hp
  obtain ⟨script, polls, e | ⟨iv, e⟩⟩ := cbceResume_cases s <;> cases e.symm.trans ht
  · exact { h with }
  · exact (show Inv { s with rngScript := script, rngPolls := polls } from { h with }).cbceFinish hk hl iv

theorem execCbce (h : Inv s) (hp : s.rngPending = false) (ht : execCbce s = .next t) : Inv t := by
  rcases execCbce_cases s with ⟨_, e⟩ | ⟨_, _, e⟩ | ⟨hl, hk, e⟩
  · cases e.symm.trans ht; exact h.failCbc hp .lengthRange (by simp)
  · cases e.symm.trans ht; exact h.failCbc hp .invalidKeyLength (by simp)
  · exact (h.rngRequest hk hl).cbceResume rfl (e.symm.trans ht)

theorem execCbcd (h : Inv s) (hp : s.rngPending = false) (ht : execCbcd s = .next t) : Inv t := by
  rcases execCbcd_cases s with ⟨_, e⟩ | ⟨_, _, e⟩ | ⟨_, _, _, e⟩ | ⟨_, hk, _, _, _, e⟩ | ⟨hl, hk, _, hmod, _, e⟩ <;>
    cases e.symm.trans ht
  · exact h.failCbc hp .lengthRange (by simp)
  · exact h.failCbc hp .invalidKeyLength (by simp)
  · exact h.failCbc hp .malformedCiphertext (by simp)
  · exact (h.installSchedule hk).failCbc hp .paddingInvalid (by simp)
  · refine (h.installSchedule hk).cbcdFinish hp ?_
    rw [cbcdRecovered_length_of_wellShaped hmod]
    exact (Nat.sub_le _ _).trans hl

theorem exec_blockCommand {i : Instr} (h : Inv s) (hc : isCommand i = true) (hn : runsCbc i = false)
    (ht : exec i s = .next t) : Inv t := by
  rcases exec_blockCommand_cases hc hn ht with ⟨_, e, _⟩ | ⟨e, _⟩ | ⟨_, e⟩ | ⟨_, hk, e⟩ <;> rw [e]
  case inr.inr.inr => exact { h.installSchedule hk with }
  all_goals exact { h with }

theorem exec_command {i : Instr} (h : Inv s) (hp : s.rngPending = false) (hc : isCommand i = true)
    (ht : exec i s = .next t) : Inv t := by
  cases i
  case cbce => exact h.execCbce hp ht
  case cbcd => exact h.execCbcd hp ht
  case rd => cases hc
  case wr => cases hc
  all_goals exact h.exec_blockCommand hc rfl ht

theorem executeCommand {v : Byte} (h : Inv s) (hp : s.rngPending = false) (ht : executeCommand v s = .next t) :
    Inv t := by
  rcases executeCommand_cases ht with ⟨i, _, hc, hi⟩ | ⟨_, e⟩
  · exact h.exec_command hp hc hi
  · rw [e]; exact { h with }

/-- R192: a KEY or KEYLEN write makes the schedule stale, an IN_BUF write stays inside IN_BUF. -/
theorem execWr {a : Addr} {v : Byte} (h : Inv s) (hp : s.rngPending = false) (ht : execWr a v s = .next t) :
    Inv t := by
  have idle {q : Prop} : s.rngPending = true → q := by simp [hp]
  rcases execWr_cases ht with ⟨_, hc⟩ | ⟨_, _, _, e⟩ | ⟨_, e⟩ | ⟨_, e⟩ | ⟨_, e⟩ | ⟨_, e⟩ | ⟨_, _, _, e⟩ | ⟨_, _, _, e⟩ |
    ⟨j, hj, _, e⟩
  case inl => exact (show Inv { s with cmd := v } from { h with }).executeCommand hp hc
  all_goals rw [e]
  case inr.inl => exact { h with accepted := idle }
  case inr.inr.inl => exact { h with schedule := nofun, accepted := idle }
  case inr.inr.inr.inr.inr.inr.inl => exact { h with schedule := nofun }
  case inr.inr.inr.inr.inr.inr.inr.inr =>
    exact
      { h with
        inBufWf := Memory.write_wf _ _ _ h.inBufWf
        inBufWithin := Memory.write_within _ _ _ _ h.inBufWithin hj }
  all_goals exact { h with }

theorem exec {i : Instr} (h : Inv s) (hp : s.rngPending = false) (ht : exec i s = .next t) : Inv t := by
  cases i
  case rd =>
    obtain ⟨_, _, e⟩ := execRd_next ht
    rw [e]; exact { h with }
  case wr => exact h.execWr hp ht
  all_goals exact h.exec_command hp rfl ht

end Inv

/-- Settles O48: a poll, an idle step, a reset event and a transaction each keep the invariant. -/
theorem stepKeepsInv : Obligations.StepKeepsInv := by
  intro s t h ht
  rcases step_cases s with ⟨hp, e⟩ | ⟨_, _, e⟩ | ⟨rest, _, _, e⟩ | ⟨w, rest, hp, _, e⟩
  · exact h.cbceResume hp (e.symm.trans ht)
  · cases e.symm.trans ht; exact h
  · cases e.symm.trans ht; exact inv_hardReset _
  · obtain ⟨i, _, hi⟩ := runWord_next (e.symm.trans ht)
    exact (show Inv { s with inputs := rest } from { h with }).exec hp hi

end Sys2Proof.Machine
end

section
/-! PROOF. STATUS as the host reads it (spec/10_state.md R30, R32): the fields of the byte, and that CHAINING is never
among what a RD between transactions returns. -/

namespace Sys2Proof.Machine

/-- The fields of a byte put together as R30 lays STATUS out. -/
theorem status_fields : ∀ (valid : Bool) (cbc : BitVec 2) (err : BitVec 4),
    let status : Byte := 0#1 ++ BitVec.ofBool valid ++ cbc ++ err
    status.extractLsb' 0 4 = err ∧ status.extractLsb' 4 2 = cbc ∧ status.getLsbD 6 = valid ∧
      status.getLsbD 7 = false := by decide

theorem errCode_le_seven (e : ErrCode) : (errCode e).toNat ≤ 7 := by
  cases e <;> decide

theorem cbcCode_eq_one_iff (c : CbcState) : cbcCode c = 1#2 ↔ c = .chaining := by
  cases c <;> decide

theorem statusByte_cbcst (s : State) : (statusByte s).extractLsb' 4 2 = cbcCode s.cbcst := by
  obtain ⟨_, hcbc, _⟩ := status_fields s.schedValid (cbcCode s.cbcst) (errCode s.err)
  exact hcbc

/-- Settles O33: the fields of the byte, and the code tables evaluated. -/
theorem statusByteLayout : Obligations.StatusByteLayout := by
  intro s
  obtain ⟨herr, hcbc, hvalid, hzero⟩ := status_fields s.schedValid (cbcCode s.cbcst) (errCode s.err)
  exact ⟨herr, hcbc, hvalid, hzero, errCode_le_seven s.err, rfl, rfl, rfl, rfl, rfl, rfl, rfl, rfl, rfl, rfl, rfl, rfl⟩

theorem hostRead_status (s : State) : hostRead s 0x1 = some (statusByte s) := hostRead_of_locate (locate_status rfl)

/-- Settles O34: the engine is CHAINING only while a request is outstanding. -/
theorem hostNeverReadsChaining : Obligations.HostNeverReadsChaining := by
  intro s t v h hp ht hv
  cases (exec_rd_of_hostRead (hostRead_status s)).symm.trans ht
  obtain rfl : statusByte s = v := Option.some.inj hv
  rw [statusByte_cbcst]
  intro hone
  simp [h.chaining.mp ((cbcCode_eq_one_iff _).mp hone)] at hp

end Sys2Proof.Machine
end

section
/-! PROOF. What an instruction can change, by who runs a command: the thirteen commands and the CMD write that starts one
on the one side, every other host transaction on the other (spec/10_state.md R31 to R34, spec/44_cbc_engine.md R162,
R168). -/

namespace Sys2Proof.Machine

/-! ### Who runs a command -/

/-- Instruction `i` in state `s` runs command `c` from state `u`: it is the command, or it writes the command's byte to
CMD (R23). -/
inductive RunsCommand (s : State) : (i c : Instr) → (u : State) → Prop
  | direct {c : Instr} (hc : isCommand c = true) : RunsCommand s c c s
  | written {c : Instr} {v : Byte} (hv : encode c = .command v) : RunsCommand s (.wr cmdAddr v) c { s with cmd := v }

/-- R162: the RNG port, the request on it and the count of requests stand as they were. -/
structure PortKept (s t : State) : Prop where
  rngPending : t.rngPending = s.rngPending
  rngRequests : t.rngRequests = s.rngRequests
  rngScript : t.rngScript = s.rngScript
  rngPolls : t.rngPolls = s.rngPolls

/-- What a host transaction that runs no command keeps, and the one way it can change SCHED_VALID (R27, R28). -/
structure RunsNoCommand (s : State) (i : Instr) (t : State) : Prop where
  notCbc : runsCbc i = false
  cbcst : t.cbcst = s.cbcst
  rk : t.rk = s.rk
  schedValid : t.schedValid = s.schedValid ∨
    t.schedValid = false ∧ ∃ a v, i = .wr a v ∧ (a.toNat = 0xC ∨ (0x20 ≤ a.toNat ∧ a.toNat < 0x30))
  port : PortKept s t
  inputs : t.inputs = s.inputs

section inversion
variable {s t u : State} {i c : Instr}

theorem RunsCommand.isCommand (h : RunsCommand s i c u) : isCommand c = true := by
  cases h with
  | direct hc => exact hc
  | written hv =>
    cases c
    case rd => cases hv
    case wr => cases hv
    all_goals rfl

theorem RunsCommand.eq_setCmd (h : RunsCommand s i c u) : ∃ v, u = { s with cmd := v } := by
  cases h <;> exact ⟨_, rfl⟩

theorem RunsCommand.runsCbc (h : RunsCommand s i c u) : runsCbc i = runsCbc c := by
  cases h with
  | direct _ => rfl
  | written hv => cases c <;> cases hv <;> rfl

theorem RunsCommand.eq_or_eq_wr {v : Byte} (h : RunsCommand s i c u) (hv : encode c = .command v) :
    i = c ∨ i = .wr cmdAddr v := by
  cases h with
  | direct _ => exact .inl rfl
  | written hw =>
    cases hv.symm.trans hw
    exact .inr rfl

theorem runsCbc_wr_of_ne {a : Addr} {v : Byte} (ha : a.toNat ≠ 0) : runsCbc (.wr a v) = false := by
  have hne : a ≠ cmdAddr := by
    rintro rfl
    exact ha rfl
  simp [Machine.runsCbc, hne]

theorem runsCbc_wr_of_error {a : Addr} {v : Byte} {e : Reject} (hv : decodeCommand v = .error e) :
    runsCbc (.wr a v) = false := by
  have he : v ≠ 0x40#8 ∧ v ≠ 0x41#8 := by constructor <;> rintro rfl <;> cases hv
  simp [Machine.runsCbc, he]

/-- A WR outside CMD stores to one operand. -/
theorem exec_wr_command_or_none {a : Addr} {v : Byte} (h : exec (.wr a v) s = .next t) :
    (∃ c u, RunsCommand s (.wr a v) c u ∧ exec c u = .next t) ∨ RunsNoCommand s (.wr a v) t := by
  rcases execWr_cases h with ⟨rfl, hx⟩ | ⟨_, _, ha, rfl⟩ | ⟨ha, rfl⟩ | ⟨ha, rfl⟩ | ⟨ha, rfl⟩ | ⟨ha, rfl⟩ |
    ⟨k, hk, ha, rfl⟩ | ⟨_, _, ha, rfl⟩ | ⟨_, _, ha, rfl⟩
  case inl =>
    rcases executeCommand_cases hx with ⟨c, hd, _, hc⟩ | ⟨⟨_, hd⟩, rfl⟩
    · exact .inl ⟨c, _, .written (encode_of_decodeCommand hd), hc⟩
    · exact .inr ⟨runsCbc_wr_of_error hd, rfl, rfl, .inl rfl, ⟨rfl, rfl, rfl, rfl⟩, rfl⟩
  all_goals refine .inr ⟨runsCbc_wr_of_ne (by omega), rfl, rfl, ?_, ⟨rfl, rfl, rfl, rfl⟩, rfl⟩
  case inr.inr.inl => exact .inr ⟨rfl, a, v, rfl, .inl ha⟩
  case inr.inr.inr.inr.inr.inr.inl => exact .inr ⟨rfl, a, v, rfl, .inr ⟨by omega, by omega⟩⟩
  all_goals exact .inl rfl

/-- Every instruction runs a command, or is a host transaction that runs none. -/
theorem exec_command_or_none (h : exec i s = .next t) :
    (∃ c u, RunsCommand s i c u ∧ exec c u = .next t) ∨ RunsNoCommand s i t := by
  cases i
  case rd =>
    obtain ⟨_, _, rfl⟩ := execRd_next h
    exact .inr ⟨rfl, rfl, rfl, .inl rfl, ⟨rfl, rfl, rfl, rfl⟩, rfl⟩
  case wr => exact exec_wr_command_or_none h
  all_goals exact .inl ⟨_, s, .direct rfl, h⟩

end inversion

/-! ### The CBC state machine -/

/-- R168: how a CBC command can leave the engine. -/
inductive CbcEnd (t : State) : Prop
  | waiting (hp : t.rngPending = true) (hst : t.cbcst = .chaining)
  | failed (hp : t.rngPending = false) (hst : t.cbcst = .idle)
      (he : t.err ∈ [ErrCode.lengthRange, .invalidKeyLength, .malformedCiphertext])
  | finished (hp : t.rngPending = false) (hst : t.cbcst = .done) (he : t.err = .ok)
  | rejected (hp : t.rngPending = false) (hst : t.cbcst = .rejected) (he : t.err = .paddingInvalid)

section engine
variable {s t : State}

theorem execCbce_end (h : execCbce s = .next t) (hp : s.rngPending = false) : CbcEnd t := by
  rcases execCbce_cases s with ⟨_, e⟩ | ⟨_, _, e⟩ | ⟨_, _, e⟩
  · cases e.symm.trans h; exact .failed hp rfl (by simp)
  · cases e.symm.trans h; exact .failed hp rfl (by simp)
  · obtain ⟨_, _, e' | ⟨_, e'⟩⟩ := cbceResume_cases (rngRequest s) <;> cases e'.symm.trans (e.symm.trans h)
    · exact .waiting rfl rfl
    · exact .finished rfl rfl rfl

theorem execCbcd_end (h : execCbcd s = .next t) (hp : s.rngPending = false) : CbcEnd t := by
  rcases execCbcd_cases s with ⟨_, e⟩ | ⟨_, _, e⟩ | ⟨_, _, _, e⟩ | ⟨_, _, _, _, _, e⟩ | ⟨_, _, _, _, _, e⟩ <;>
    cases e.symm.trans h
  case inr.inr.inr.inl => exact .rejected hp rfl rfl
  case inr.inr.inr.inr => exact .finished hp rfl rfl
  all_goals exact .failed hp rfl (by simp)

theorem exec_cbc_end {i : Instr} (hc : isCommand i = true) (hn : runsCbc i = true) (h : exec i s = .next t)
    (hp : s.rngPending = false) : CbcEnd t := by
  cases i
  case cbce => exact execCbce_end h hp
  case cbcd => exact execCbcd_end h hp
  case wr => cases hc
  all_goals cases hn

/-- R29, R31: the other commands do not touch the engine. -/
theorem exec_blockCommand_cbcst {i : Instr} (hc : isCommand i = true) (hn : runsCbc i = false)
    (h : exec i s = .next t) : t.cbcst = s.cbcst := by
  rcases exec_blockCommand_cases hc hn h with ⟨_, e, _⟩ | ⟨e, _⟩ | ⟨_, e⟩ | ⟨_, _, e⟩ <;> rw [e]

end engine

/-- Settles O26: a CBC command ends in one of the four ways of `CbcEnd`, any other instruction keeps CBCST. -/
theorem cbcStateMachine : Obligations.CbcStateMachine := by
  intro i s t hp h
  rcases exec_command_or_none h with ⟨c, u, hr, hx⟩ | hnone
  · obtain ⟨v, rfl⟩ := hr.eq_setCmd
    rw [hr.runsCbc]
    refine ⟨fun hn => (exec_blockCommand_cbcst hr.isCommand hn hx :), fun hn => ?_⟩
    cases exec_cbc_end hr.isCommand hn hx hp with
    | waiting hp hst => exact .inl ⟨hp, hst⟩
    | failed hp hst he => exact .inr (.inl ⟨hp, hst, he⟩)
    | finished hp hst he => exact .inr (.inr (.inl ⟨hp, hst, he⟩))
    | rejected hp hst he => exact .inr (.inr (.inr ⟨hp, hst, he⟩))
  · exact ⟨fun _ => hnone.cbcst, fun hn => by simp [hnone.notCbc] at hn⟩

/-! ### The RNG port -/

section port
variable {s t : State}

/-- A CBCE asks once, past its prechecks. -/
theorem execCbce_port (h : execCbce s = .next t) :
    PortKept s t ∨
      (t.rngRequests = s.rngRequests + 1 ∧ s.inLen.toNat ≤ inCapBytes s.inCap ∧ s.keyLen = 0x10#8) := by
  rcases execCbce_cases s with ⟨_, e⟩ | ⟨_, _, e⟩ | ⟨hl, hk, e⟩
  · cases e.symm.trans h; exact .inl ⟨rfl, rfl, rfl, rfl⟩
  · cases e.symm.trans h; exact .inl ⟨rfl, rfl, rfl, rfl⟩
  · refine .inr ⟨?_, hl, hk⟩
    obtain ⟨_, _, e' | ⟨_, e'⟩⟩ := cbceResume_cases (rngRequest s) <;> cases e'.symm.trans (e.symm.trans h) <;> rfl

theorem execCbcd_port (h : execCbcd s = .next t) : PortKept s t := by
  rcases execCbcd_cases s with ⟨_, e⟩ | ⟨_, _, e⟩ | ⟨_, _, _, e⟩ | ⟨_, _, _, _, _, e⟩ | ⟨_, _, _, _, _, e⟩ <;>
    cases e.symm.trans h <;> exact ⟨rfl, rfl, rfl, rfl⟩

theorem exec_blockCommand_port {i : Instr} (hc : isCommand i = true) (hn : runsCbc i = false)
    (h : exec i s = .next t) : PortKept s t := by
  rcases exec_blockCommand_cases hc hn h with ⟨_, e, _⟩ | ⟨e, _⟩ | ⟨_, e⟩ | ⟨_, _, e⟩ <;> rw [e] <;>
    exact ⟨rfl, rfl, rfl, rfl⟩

theorem exec_command_port {i : Instr} (hc : isCommand i = true) (hi : i ≠ .cbce) (h : exec i s = .next t) :
    PortKept s t := by
  cases i
  case cbce => exact absurd rfl hi
  case cbcd => exact execCbcd_port h
  case rd => cases hc
  case wr => cases hc
  all_goals exact exec_blockCommand_port hc rfl h

end port

/-- Settles O43: of the commands only CBCE touches the port, and no other transaction does. -/
theorem rngRequestsOnlyByCbce : Obligations.RngRequestsOnlyByCbce := by
  intro i s t h
  rcases exec_command_or_none h with ⟨c, u, hr, hx⟩ | hnone
  · obtain ⟨v, rfl⟩ := hr.eq_setCmd
    by_cases hc : c = .cbce
    · subst hc
      rcases execCbce_port hx with ⟨_, hreq, hscript, hpolls⟩ | ⟨hreq, hl, hk⟩
      · exact .inl ⟨hreq, hscript, hpolls⟩
      · exact .inr ⟨hreq, by simpa using hr.eq_or_eq_wr (v := 0x40#8) rfl, hl, hk⟩
    · obtain ⟨_, hreq, hscript, hpolls⟩ := exec_command_port hr.isCommand hc hx
      exact .inl ⟨hreq, hscript, hpolls⟩
  · exact .inl ⟨hnone.port.rngRequests, hnone.port.rngScript, hnone.port.rngPolls⟩

/-! ### The schedule -/

/-- R33, R34: the commands other than KEYEXP, CBCE and CBCD keep the schedule. -/
theorem exec_command_scheduleKept {s t : State} {i : Instr} (hc : isCommand i = true)
    (hi : i ∉ [Instr.keyexp, .cbce, .cbcd]) (h : exec i s = .next t) : ScheduleKept s t := by
  have hn : runsCbc i = false := by
    cases i
    case cbce => simp at hi
    case cbcd => simp at hi
    case wr => cases hc
    all_goals rfl
  rcases exec_blockCommand_cases hc hn h with ⟨_, e, _⟩ | ⟨e, _⟩ | ⟨_, e⟩ | ⟨hkeyexp, _, _⟩
  case inr.inr.inr => simp [hkeyexp] at hi
  all_goals rw [e]; exact ⟨rfl, rfl⟩

/-- The instructions that run one of the commands that expand the key. -/
theorem RunsCommand.mem_of_expands {s u : State} {i c : Instr} (h : RunsCommand s i c u)
    (hc : c ∈ [Instr.keyexp, .cbce, .cbcd]) :
    i ∈ [Instr.keyexp, .cbce, .cbcd, .wr cmdAddr 0x10, .wr cmdAddr 0x40, .wr cmdAddr 0x41] := by
  simp only [List.mem_cons, List.not_mem_nil, or_false] at hc
  rcases hc with rfl | rfl | rfl <;> rcases h.eq_or_eq_wr rfl with rfl | rfl <;> decide

section schedule
variable {s t : State} {i : Instr}

/-- R33: what makes SCHED_VALID rise. -/
theorem exec_schedValid_rises (hs : s.schedValid = false) (h : exec i s = .next t) (ht : t.schedValid = true) :
    i ∈ [Instr.keyexp, .cbce, .cbcd, .wr cmdAddr 0x10, .wr cmdAddr 0x40, .wr cmdAddr 0x41] := by
  rcases exec_command_or_none h with ⟨c, u, hr, hx⟩ | hnone
  · obtain ⟨v, rfl⟩ := hr.eq_setCmd
    refine hr.mem_of_expands (by_contra fun hc => ?_)
    have hkept := (exec_command_scheduleKept hr.isCommand hc hx).valid
    simp [ht, hs] at hkept
  · rcases hnone.schedValid with hkept | ⟨hstale, _⟩
    · simp [ht, hs] at hkept
    · simp [ht] at hstale

/-- R33: what makes SCHED_VALID fall. -/
theorem exec_schedValid_falls (hs : s.schedValid = true) (h : exec i s = .next t) (ht : t.schedValid = false) :
    ∃ a v, i = .wr a v ∧ (a.toNat = 0xC ∨ (0x20 ≤ a.toNat ∧ a.toNat < 0x30)) := by
  rcases exec_command_or_none h with ⟨c, u, hr, hx⟩ | hnone
  · obtain ⟨v, rfl⟩ := hr.eq_setCmd
    rcases exec_command_schedule hr.isCommand hx with ⟨_, hkept⟩ | ⟨_, hvalid⟩
    · simp [ht, hs] at hkept
    · simp [ht] at hvalid
  · rcases hnone.schedValid with hkept | ⟨_, haddr⟩
    · simp [ht, hs] at hkept
    · exact haddr

end schedule

/-- Settles O35: the rises, the falls, and that every KEY or KEYLEN write makes the schedule stale. -/
theorem schedValidEvents : Obligations.SchedValidEvents := by
  refine fun i s t h => ⟨fun hs => exec_schedValid_rises hs h, fun hs => exec_schedValid_falls hs h, ?_⟩
  rintro a v rfl ha
  exact (exec_wr_scheduleStale ha h).valid

/-- Settles O36: a command keeps the schedule or installs the expansion of KEY, any other transaction keeps RK. -/
theorem rkWrittenOnlyByExpansion : Obligations.RkWrittenOnlyByExpansion := by
  intro i s t h
  rcases exec_command_or_none h with ⟨c, u, hr, hx⟩ | hnone
  · obtain ⟨v, rfl⟩ := hr.eq_setCmd
    exact (exec_command_schedule hr.isCommand hx).imp (fun hkept => hkept.rk) fun ⟨hrk, hvalid⟩ => ⟨hrk, hvalid⟩
  · exact .inl hnone.rk

end Sys2Proof.Machine
end

section
/-! PROOF. What the commands keep: the operand registers, all but ERR when a command fails (spec/60_exceptions.md R202),
the readable output when a CBC command fails (spec/44_cbc_engine.md R163), and the block registers in a CBC command
(spec/10_state.md R29, R41). -/

namespace Sys2Proof.Machine

/-- Settles O37: `exec_command_operandsKept`, with the reset draw that unwritten IN_BUF bytes read as. -/
theorem commandsKeepOperands : Obligations.CommandsKeepOperands := by
  intro i s t hc h
  obtain ⟨hcmd, hopa, hopb, hround, hkey, hkeyLen, hinLen, hinBuf, hinCap, hinputs, hlastRead, hepoch⟩ :=
    exec_command_operandsKept hc h
  refine ⟨hcmd, hopa, hopb, hround, hkey, hkeyLen, hinLen, hinBuf, hinCap, hinputs, hlastRead, fun j => ?_⟩
  rw [inBufByte, inBufByte, hinBuf, hepoch]

/-- Settles O40: of the four ends of such a command only the one that writes ERR alone leaves an error. -/
theorem failingCommandChangesOnlyErr : Obligations.FailingCommandChangesOnlyErr := by
  intro i s t hc hn h he
  rcases exec_blockCommand_cases hc hn h with ⟨_, e, _⟩ | ⟨e, _⟩ | ⟨_, e⟩ | ⟨_, _, e⟩
  case inr.inl => exact e
  all_goals exact absurd (by rw [e]) he

/-! ### A failing CBC command -/

section failing
variable {s t : State}

theorem execCbce_failed_outLen (h : execCbce s = .next t) (hp : t.rngPending = false) (he : t.err ≠ .ok) :
    t.outLen = 0#32 := by
  rcases execCbce_cases s with ⟨_, e⟩ | ⟨_, _, e⟩ | ⟨_, _, e⟩
  · cases e.symm.trans h; rfl
  · cases e.symm.trans h; rfl
  · obtain ⟨_, _, e' | ⟨_, e'⟩⟩ := cbceResume_cases (rngRequest s) <;> cases e'.symm.trans (e.symm.trans h)
    · cases hp
    · exact absurd rfl he

theorem execCbcd_failed_outLen (h : execCbcd s = .next t) (he : t.err ≠ .ok) : t.outLen = 0#32 := by
  rcases execCbcd_cases s with ⟨_, e⟩ | ⟨_, _, e⟩ | ⟨_, _, _, e⟩ | ⟨_, _, _, _, _, e⟩ | ⟨_, _, _, _, _, e⟩ <;>
    cases e.symm.trans h
  case inr.inr.inr.inr => exact absurd rfl he
  all_goals rfl

theorem hostRead_outBuf {a : Addr} (hlo : 0x200000 ≤ a.toNat) (hhi : a.toNat < 0x200000 + outCapBytes t.inCap) :
    hostRead t a = some (outBufByte t (a.toNat - 0x200000)) :=
  hostRead_of_locate (locate_outBuf (j := a.toNat - 0x200000) (by omega) (by omega))

end failing

/-- Settles O22: a CBC command that failed left OUT_LEN = 0, which closes the gate of OUT_BUF. -/
theorem failedCbcHidesOutput : Obligations.FailedCbcHidesOutput := by
  intro i s t a hi h hp he hlo hhi
  have hclosed : t.outLen = 0#32 := by
    simp only [List.mem_cons, List.not_mem_nil, or_false] at hi
    rcases hi with rfl | rfl
    · exact execCbce_failed_outLen h hp he
    · exact execCbcd_failed_outLen h he
  exact exec_rd_of_hostRead ((hostRead_outBuf hlo hhi).trans (congrArg some (outBufByte_of_outLen_zero hclosed _)))

/-! ### The block registers -/

/-- The same state with other values in STATE, OPA, OPB, RES and ROUND. -/
def setBlockRegisters (b : Block) (x y z w : Byte) (s : State) : State :=
  { s with state := b, opa := x, opb := y, res := z, round := w }

/-- R29: the block registers stand as they were. -/
structure BlockRegistersKept (s t : State) : Prop where
  state : t.state = s.state
  opa : t.opa = s.opa
  opb : t.opb = s.opb
  res : t.res = s.res
  round : t.round = s.round

section registers
variable (b : Block) (x y z w : Byte) {s t : State}

theorem cbceFinish_setBlockRegisters (iv : Block) (s : State) :
    cbceFinish iv (setBlockRegisters b x y z w s) = setBlockRegisters b x y z w (cbceFinish iv s) := by
  have houtBuf : (cbceFinish iv (setBlockRegisters b x y z w s)).outBuf = (cbceFinish iv s).outBuf := by
    rw [cbceFinish_outBuf, cbceFinish_outBuf, cbceStream_congr iv _ s rfl rfl rfl rfl]
    rfl
  rw [cbceFinish_frame, houtBuf]
  rfl

theorem cbceResume_setBlockRegisters (h : cbceResume s = .next t) :
    cbceResume (setBlockRegisters b x y z w s) = .next (setBlockRegisters b x y z w t) := by
  obtain ⟨hanswer, hscript, hpolls⟩ := rngPoll_congr (s := setBlockRegisters b x y z w s) (u := s) rfl rfl
  rcases hiv : (rngPoll s).1 with _ | iv
  · cases (cbceResume_of_none hiv).symm.trans h
    rw [cbceResume_of_none (hanswer.trans hiv), hscript, hpolls]
    rfl
  · cases (cbceResume_of_some hiv).symm.trans h
    rw [cbceResume_of_some (hanswer.trans hiv), hscript, hpolls, ← cbceFinish_setBlockRegisters]
    rfl

theorem execCbce_setBlockRegisters (h : execCbce s = .next t) :
    execCbce (setBlockRegisters b x y z w s) = .next (setBlockRegisters b x y z w t) := by
  rcases execCbce_cases s with ⟨hl, e⟩ | ⟨hl, hk, e⟩ | ⟨hl, hk, e⟩
  · cases e.symm.trans h
    exact exec_cbce_of_inLen_gt (s := setBlockRegisters b x y z w s) hl
  · cases e.symm.trans h
    exact exec_cbce_of_keyLen_ne (s := setBlockRegisters b x y z w s) hl hk
  · refine (exec_cbce_of_accepted (s := setBlockRegisters b x y z w s) hl hk).trans ?_
    exact cbceResume_setBlockRegisters b x y z w (e.symm.trans h)

theorem execCbcd_setBlockRegisters (h : execCbcd s = .next t) :
    execCbcd (setBlockRegisters b x y z w s) = .next (setBlockRegisters b x y z w t) := by
  rcases execCbcd_cases s with ⟨hl, e⟩ | ⟨hl, hk, e⟩ | ⟨hl, hk, hs, e⟩ | ⟨hl, hk, h32, hmod, hp, e⟩ |
    ⟨hl, hk, h32, hmod, hp, e⟩ <;> cases e.symm.trans h
  · exact exec_cbcd_of_inLen_gt (s := setBlockRegisters b x y z w s) hl
  · exact exec_cbcd_of_keyLen_ne (s := setBlockRegisters b x y z w s) hl hk
  · exact exec_cbcd_of_malformed (s := setBlockRegisters b x y z w s) hl hk hs
  · exact (exec_cbcd_of_wellShaped (s := setBlockRegisters b x y z w s) hl hk h32 hmod).2 hp
  · exact (exec_cbcd_of_wellShaped (s := setBlockRegisters b x y z w s) hl hk h32 hmod).1 hp

theorem exec_cbc_setBlockRegisters {i : Instr} (hi : i ∈ [Instr.cbce, .cbcd]) (h : exec i s = .next t) :
    exec i (setBlockRegisters b x y z w s) = .next (setBlockRegisters b x y z w t) := by
  simp only [List.mem_cons, List.not_mem_nil, or_false] at hi
  rcases hi with rfl | rfl
  · exact execCbce_setBlockRegisters b x y z w h
  · exact execCbcd_setBlockRegisters b x y z w h

/-- A CBC command that answers the same whatever the block registers hold leaves in them what they held. -/
theorem exec_cbc_blockRegistersKept {i : Instr} (hi : i ∈ [Instr.cbce, .cbcd]) (h : exec i s = .next t) :
    BlockRegistersKept s t := by
  have hown := exec_cbc_setBlockRegisters s.state s.opa s.opb s.res s.round hi h
  have ht : t = setBlockRegisters s.state s.opa s.opb s.res s.round t := Host.Outcome.next.inj (h.symm.trans hown)
  rw [ht]
  exact ⟨rfl, rfl, rfl, rfl, rfl⟩

end registers

/-- Settles O39: both runs answer alike up to the block registers, and so each keeps its own. -/
theorem cbcIgnoresBlockRegisters : Obligations.CbcIgnoresBlockRegisters := by
  intro i s t b x y z w hi h
  obtain ⟨hstate, hopa, hopb, hres, hround⟩ := exec_cbc_blockRegistersKept hi h
  exact ⟨exec_cbc_setBlockRegisters b x y z w hi h, hstate, hopa, hopb, hres, hround⟩

/-! ### A changed stream block -/

theorem inBufBlock_inBufWrite_of_lt {a j : Nat} (hj : j < a) (v : Byte) (s : State) :
    inBufBlock (inBufWrite j v s) a = inBufBlock s a :=
  blockOf_congr fun k _ => by rw [inBufByte_inBufWrite, if_neg (by omega)]

/-- Settles O25: the last recovered block is the decryption of the last ciphertext block, which the write does not reach,
exclusive-or the stream block the write changes. -/
theorem tamperedChainFlipsPlaintext : Obligations.TamperedChainFlipsPlaintext := by
  intro s j k v h32 hmod hj hk
  obtain ⟨i, hi⟩ : ∃ i, s.inLen.toNat - 32 = 16 * i := ⟨(s.inLen.toNat - 32) / 16, by omega⟩
  have hlast : i < (s.inLen.toNat - 16) / 16 := by omega
  have hcipher := inBufBlock_inBufWrite_of_lt (a := 16 + 16 * i) (j := 16 * i + j) (by omega) v s
  rw [hi, List.getD_eq_getElem?_getD, List.getD_eq_getElem?_getD, cbcdRecovered_getElem s hlast hk,
    cbcdRecovered_getElem (inBufWrite _ v s) hlast hk, hcipher, inBufByte_inBufWrite, Option.getD_some, Option.getD_some]
  by_cases hkj : k = j
  · simp [hkj, BitVec.xor_assoc, ← BitVec.xor_assoc (inBufByte s _) (inBufByte s _)]
  · simp [hkj]

end Sys2Proof.Machine
end

section
/-! PROOF. What the host reads after a change of state (spec/45_host_bus.md R191, spec/20_memory.md R62): the byte of a
row depends on that row's register alone, so a store is seen at its own address and, STATUS apart, nowhere else. -/

namespace Sys2Proof.Machine

theorem addressMap_names_nodup (cap : InCap) : ((addressMap cap).map Region.name).Nodup := by
  simp [addressMap]

/-- A name is that of one row. -/
theorem region_eq_of_name_eq {cap : InCap} {q r : Region} (hq : q ∈ addressMap cap) (hr : r ∈ addressMap cap)
    (h : q.name = r.name) : q = r :=
  List.inj_on_of_nodup_map (addressMap_names_nodup cap) hq hr h

/-- A RD sees a change of state only through the row that holds the address. -/
theorem hostRead_congr {s t : State} {a : Addr} (hcap : t.inCap = s.inCap)
    (h : ∀ r ∈ addressMap s.inCap, r.base ≤ a.toNat → a.toNat < r.base + r.size →
      regionByte r.name (a.toNat - r.base) t = regionByte r.name (a.toNat - r.base) s) :
    hostRead t a = hostRead s a := by
  rw [hostRead, hostRead, hcap]
  rcases hl : locate s.inCap a with _ | r
  · rfl
  · obtain ⟨hr, hlo, hhi⟩ := locate_eq_some hl
    simp [h r hr hlo hhi]

/-! ### The primitive and block commands -/

theorem exec_stateCommand_cases {i : Instr} {s t : State}
    (hi : i ∈ [Instr.subb, .isubb, .shr, .ishr, .mixc, .imixc, .ark, .encb, .decb]) (h : exec i s = .next t) :
    ∃ b e, t = { s with state := b, err := e } := by
  obtain ⟨hc, hn⟩ : isCommand i = true ∧ runsCbc i = false := by
    clear h
    revert i
    decide
  rcases exec_blockCommand_cases hc hn h with ⟨b, e, _⟩ | ⟨e, _⟩ | ⟨rfl, _⟩ | ⟨rfl, _⟩
  · exact ⟨b, .ok, e⟩
  · exact ⟨s.state, t.err, e⟩
  all_goals simp at hi

theorem regionByte_setState {n : RegionName} (hstate : n ≠ .state) (hstatus : n ≠ .status) (b : Block) (e : ErrCode)
    (j : Nat) (s : State) : regionByte n j { s with state := b, err := e } = regionByte n j s := by
  cases n
  case state => exact absurd rfl hstate
  case status => exact absurd rfl hstatus
  all_goals rfl

/-- Settles O38: the rows of STATE and STATUS hold the excepted addresses alone. -/
theorem stateCommandsFrame : Obligations.StateCommandsFrame := by
  intro i s t a hi h hstatus hstate
  obtain ⟨b, e, rfl⟩ := exec_stateCommand_cases hi h
  refine hostRead_congr rfl fun r hr hlo hhi => regionByte_setState ?_ ?_ b e _ s
  · intro hn
    obtain rfl : r = ⟨.state, 0x30, 16, true⟩ := region_eq_of_name_eq hr (by simp [addressMap]) hn
    exact hstate ⟨hlo, hhi⟩
  · intro hn
    obtain rfl : r = ⟨.status, 0x1, 1, false⟩ := region_eq_of_name_eq hr (by simp [addressMap]) hn
    exact hstatus (BitVec.eq_of_toNat_eq (show a.toNat = 1 by simp only at hlo hhi; omega))

/-! ### Stores -/

section store
variable {a : Addr} {n : RegionName} {j : Nat} {v : Byte} {s t : State}

/-- A store leaves the byte of every other row as it was, but for STATUS. -/
theorem regionByte_store_of_ne (h : storeRegion a n j v s = .next t) (hcmd : n ≠ .cmd) {m : RegionName} (hm : m ≠ n)
    (hstatus : m ≠ .status) (k : Nat) : regionByte m k t = regionByte m k s := by
  rcases storeRegion_cases h with ⟨rfl, _⟩ | ⟨rfl, rfl⟩ | ⟨rfl, rfl⟩ | ⟨rfl, rfl⟩ | ⟨rfl, rfl⟩ | ⟨rfl, rfl⟩ |
    ⟨rfl, rfl⟩ | ⟨rfl, rfl⟩ | ⟨rfl, rfl⟩
  case inl => exact absurd rfl hcmd
  all_goals cases m <;> first | rfl | contradiction

/-- Within its own row a store changes the byte at its offset alone. -/
theorem regionByte_store_self (h : storeRegion a n j v s = .next t) (hcmd : n ≠ .cmd) {cap : InCap} {base size : Nat}
    {w : Bool} (hr : ⟨n, base, size, w⟩ ∈ addressMap cap) (hj : j < size) {k : Nat} (hk : k < size) :
    regionByte n k t = if k = j then v else regionByte n k s := by
  rw [mem_addressMap] at hr
  rcases storeRegion_cases h with ⟨rfl, _⟩ | ⟨rfl, rfl⟩ | ⟨rfl, rfl⟩ | ⟨rfl, rfl⟩ | ⟨rfl, rfl⟩ | ⟨rfl, rfl⟩ |
    ⟨rfl, rfl⟩ | ⟨rfl, rfl⟩ | ⟨rfl, rfl⟩ <;>
    simp only [Region.mk.injEq, reduceCtorEq, false_and, true_and, false_or, or_false] at hr
  case inl => exact absurd rfl hcmd
  case inr.inl => exact countByte_setCountByte s.inLen v (by omega) (by omega)
  case inr.inr.inr.inr.inr.inr.inl => exact blockByte_setBlockByte s.key j v (by omega)
  case inr.inr.inr.inr.inr.inr.inr.inl => exact blockByte_setBlockByte s.state j v (by omega)
  case inr.inr.inr.inr.inr.inr.inr.inr => exact inBufByte_inBufWrite s j v k
  all_goals
    have hkj : k = j := by omega
    rw [if_pos hkj]
    rfl

end store

/-- R62: what every RD but that of STATUS returns after a WR outside CMD. -/
theorem hostRead_after_wr {s t : State} {a b : Addr} {v : Byte} (h : exec (.wr a v) s = .next t) (ha : a ≠ cmdAddr)
    (hb : b ≠ 0x1) : hostRead t b = if b = a then some v else hostRead s b := by
  have hcap : t.inCap = s.inCap := exec_inCap h
  obtain ⟨r, hr, _, hstore⟩ := execWr_next h
  obtain ⟨hrm, hrlo, hrhi⟩ := locate_eq_some hr
  have hcmd : r.name ≠ .cmd := by
    intro hn
    obtain rfl : r = ⟨.cmd, 0x0, 1, true⟩ := region_eq_of_name_eq hrm (by simp [addressMap]) hn
    exact ha (BitVec.eq_of_toNat_eq (show a.toNat = 0 by simp only at hrhi; omega))
  have hself {k : Nat} (hk : k < r.size) := regionByte_store_self hstore hcmd hrm (by omega) hk
  split
  · next hba =>
    subst hba
    rw [hostRead_of_locate (hcap ▸ hr), hself (by omega), if_pos rfl]
  · next hba =>
    refine hostRead_congr hcap fun q hq hlo hhi => ?_
    by_cases hn : q.name = r.name
    · obtain rfl := region_eq_of_name_eq hq hrm hn
      rw [hself (by omega), if_neg fun hk => hba (BitVec.eq_of_toNat_eq (by omega))]
    · refine regionByte_store_of_ne hstore hcmd hn (fun hst => ?_) _
      obtain rfl : q = ⟨.status, 0x1, 1, false⟩ := region_eq_of_name_eq hq (by simp [addressMap]) hst
      exact hb (BitVec.eq_of_toNat_eq (show b.toNat = 1 by simp only at hlo hhi; omega))

/-- STATUS is read-only: no WR to it answers a next state. -/
theorem ne_status_of_exec_wr {s t : State} {a : Addr} {v : Byte} (h : exec (.wr a v) s = .next t) : a ≠ 0x1 := by
  rintro rfl
  have hfault := exec_wr_of_not_writableAddr (s := s) (a := 0x1) v (by
    change ¬ writableAddr s.inCap 0x1
    unfold writableAddr
    omega)
  cases hfault.symm.trans h

/-- Settles O30: `hostRead_after_wr`, with CMD read back by `cmdWriteRunsCommand`. -/
theorem readReturnsLatestWrite : Obligations.ReadReturnsLatestWrite := by
  intro s t a v h
  refine ⟨?_, fun b ha hba hb => ?_⟩
  · by_cases ha : a = cmdAddr
    · subst ha
      obtain ⟨_, _, u, hu, _, hread⟩ := cmdWriteRunsCommand s v
      cases hu.symm.trans h
      exact hread
    · exact exec_rd_of_hostRead (by rw [hostRead_after_wr h ha (ne_status_of_exec_wr h), if_pos rfl])
  · rw [hostRead_after_wr h ha hb, if_neg hba]

end Sys2Proof.Machine
end

section
/-! PROOF. One step (spec/45_host_bus.md R190, spec/70_reset_and_hazards.md R230): what it does with the host's next
input, and the steps of a CBCE that waits for the RNG (spec/44_cbc_engine.md R162). -/

namespace Sys2Proof.Machine

/-! ### One step -/

section step
variable {s : State}

theorem step_of_pending (hp : s.rngPending = true) : step s = cbceResume s := by simp [step, hp]

theorem step_of_word {w : TransactionWord} {rest : List HostInput} (hp : s.rngPending = false)
    (hi : s.inputs = .word w :: rest) : step s = runWord w { s with inputs := rest } := by
  simp [step, hp, hi]

theorem step_of_decode {w : TransactionWord} {rest : List HostInput} {i : Instr} (hp : s.rngPending = false)
    (hi : s.inputs = .word w :: rest) (hw : decodeTransaction w = .ok i) : step s = exec i { s with inputs := rest } := by
  rw [step_of_word hp hi, runWord, hw]

end step

/-- Settles O44: the three cases of the host's list. -/
theorem stepPerformsTransaction : Obligations.StepPerformsTransaction := by
  refine fun s hp => ⟨fun w rest i => step_of_decode hp, fun w rest e hi hw => ?_, fun hi => ?_⟩
  · rw [step_of_word hp hi, runWord, hw]
  · simp [step, hp, hi]

/-- Settles O46: the step is `hardReset`, after which no schedule is valid and KEYLEN is 0. -/
theorem resetEvent : Obligations.ResetEvent := by
  intro s rest hp hi
  have hstep : step s = .next (hardReset { s with inputs := rest }) := by simp [step, hp, hi]
  obtain ⟨_, hreject⟩ := keyexpExpandsOrRejects (hardReset { s with inputs := rest })
  exact ⟨_, hstep, rfl, fun _ => rfl, outBufByte_of_outLen_zero rfl, fun i hi => exec_noSchedule hi rfl,
    hreject (show 0x00#8 ≠ 0x10#8 by decide)⟩

/-! ### A CBCE that waits for the RNG -/

/-- An accepted CBCE whose first poll finds no answer waits. -/
theorem exec_cbce_of_no_answer {s : State} (hl : s.inLen.toNat ≤ inCapBytes s.inCap) (hk : s.keyLen = 0x10)
    (h : (rngPoll s).1 = none) :
    exec .cbce s = .next { s with cbcst := .chaining, rngPending := true, rngRequests := s.rngRequests + 1,
                                  rngScript := (rngPoll s).2.rngScript, rngPolls := (rngPoll s).2.rngPolls } := by
  obtain ⟨hanswer, hscript, hpolls⟩ := rngPoll_congr (rngRequest_rngScript s) (rngRequest_rngPolls s)
  rw [exec_cbce_of_accepted hl hk, cbceResume_of_none (hanswer.trans h), hscript, hpolls]
  rfl

/-- The state in which a waiting CBCE has polled once more. -/
def polled (s : State) : State :=
  { s with rngScript := (rngPoll s).2.rngScript, rngPolls := (rngPoll s).2.rngPolls }

theorem step_of_answer {s : State} {iv : Block} (hp : s.rngPending = true) (h : (rngPoll s).1 = some iv) :
    step s = .next (cbceFinish iv (polled s)) :=
  (step_of_pending hp).trans (cbceResume_of_some h)

/-- Settles O18: an unanswered poll changes the port alone, an answered one is `cbceFinish`, whose stream the invariant's
bound on IN_LEN makes fit. -/
theorem cbceWaitsForRng : Obligations.CbceWaitsForRng := by
  refine fun s => ⟨exec_cbce_of_no_answer, fun hp h => (step_of_pending hp).trans (cbceResume_of_none h),
    fun hp iv h => ⟨_, step_of_answer hp h, rfl, rfl, rfl, rfl, rfl⟩, fun hinv hp iv h => ?_⟩
  have hl : (polled s).inLen.toNat ≤ inCapBytes (polled s).inCap := (hinv.accepted hp).2
  exact ⟨_, step_of_answer hp h, cbceFinish_frame iv (polled s), cbceFinish_outLen_toNat iv hl,
    fun _ => outBufByte_cbceFinish_iv iv hl, fun _ hi _ => outBufByte_cbceFinish_block iv hl hi,
    fun _ => outBufRam_cbceFinish_of_outLen_le iv hl⟩

theorem decodeTransaction_commandWord (v : Byte) : decodeTransaction (commandWord v) = .ok (.wr cmdAddr v) :=
  decodeTransaction_packTransaction_write cmdAddr v

/-- The step that starts an accepted CBCE is that of the CBCE with its request issued. -/
theorem step_cbce {s : State} {more : List HostInput} (hp : s.rngPending = false)
    (hi : s.inputs = .word (commandWord 0x40) :: more) (hl : s.inLen.toNat ≤ inCapBytes s.inCap)
    (hk : s.keyLen = 0x10) : step s = step (rngRequest { s with cmd := 0x40, inputs := more }) := by
  rw [step_of_decode hp hi (decodeTransaction_commandWord _), exec_wr_cmdAddr,
    executeCommand_of_decode (i := .cbce) rfl, step_of_pending rfl]
  exact exec_cbce_of_accepted hl hk

/-- Two states with the same first step have the same longer runs. -/
theorem run_succ_congr {s u : State} (h : step s = step u) (n : Nat) :
    Host.Core.run Sys2Proof.core (n + 1) s = Host.Core.run Sys2Proof.core (n + 1) u := by
  have hcore : Sys2Proof.core.step s = Sys2Proof.core.step u := h
  simp only [Host.Core.run, hcore]

/-- A waiting CBCE completes at the first answer of the list. -/
theorem run_waiting {s : State} {k : Nat} {iv : Block} {rest : List (Option Block)} (hp : s.rngPending = true)
    (hscript : s.rngScript = List.replicate k none ++ some iv :: rest) :
    Host.Core.run Sys2Proof.core (k + 1) s = .next (cbceFinish iv { s with rngScript := rest }) := by
  induction k generalizing s with
  | zero =>
    have hpoll : rngPoll s = (some iv, { s with rngScript := rest }) := by
      rw [rngPoll, hscript]
      rfl
    refine run_succ_next 0 ?_
    rw [step_of_pending hp, cbceResume, hpoll]
  | succ k ih =>
    have hpoll : rngPoll s = (none, { s with rngScript := List.replicate k none ++ some iv :: rest }) := by
      rw [rngPoll, hscript]
      rfl
    have hstep : step s = .next { s with rngScript := List.replicate k none ++ some iv :: rest } := by
      rw [step_of_pending hp, cbceResume, hpoll]
    exact (run_succ_next (k + 1) hstep).trans (ih hp rfl)

/-- Settles O19: with the request issued, the run with `k` unanswered polls and that with none complete alike. -/
theorem cbceCompletesWhenRngAnswers : Obligations.CbceCompletesWhenRngAnswers := by
  intro s t k iv rest more hp hi hl hk hscript ht
  have hlate := (run_succ_congr (step_cbce hp hi hl hk) k).trans (run_waiting rfl hscript)
  have hsoon := (run_succ_congr
    (step_cbce (s := { s with rngScript := some iv :: rest }) hp hi hl hk) 0).trans (run_waiting (k := 0) rfl rfl)
  exact hlate.trans (hsoon.symm.trans (run_succ_next 0 ht))

end Sys2Proof.Machine
end

section
/-! PROOF. Runs of host programs (spec/45_host_bus.md R190, spec/70_reset_and_hazards.md R240): each transaction takes
its word from the host's list, so a program without a CBCE ends with its list; and the run of LDKEY and CMD KEYEXP
(spec/30_encoding.md R91). -/

namespace Sys2Proof.Machine

/-! ### Programs without a CBCE -/

/-- R89: a well-formed word spells a transaction. -/
theorem decodeTransaction_of_wellFormed {w : TransactionWord} (h : wordWellFormed w = true) :
    ∃ i, decodeTransaction w = .ok i := by
  simp only [wordWellFormed, reservedBitsClear, readDataClear, Bool.and_eq_true, Bool.or_eq_true, beq_iff_eq] at h
  obtain ⟨hreserved, hread⟩ := h
  rcases hd : decodeTransaction w with e | i
  · exfalso
    rcases decodeTransaction_error_iff.mp ⟨e, hd⟩ with hbig | ⟨hw, hdata⟩
    · bv_omega
    · rcases hread with hbit | hzero
      · exact absurd hbit (by simpa [wordWrites] using hw)
      · bv_omega
  · exact ⟨i, rfl⟩

/-- No byte of a transaction word is a command: it spells a RD or a WR. -/
theorem decodeTransaction_not_command {w : TransactionWord} {i : Instr} (h : decodeTransaction w = .ok i) :
    isCommand i = false := by
  have hw := encode_of_decodeTransaction h
  cases i
  case rd => rfl
  case wr => rfl
  all_goals cases hw

/-- R205: a transaction answers a next state or is a BUS_ERROR. -/
theorem exec_transaction_outcome {i : Instr} (hi : isCommand i = false) (s : State) :
    (∃ t, exec i s = .next t) ∨ ∃ a, exec i s = .fault (.busError a) := by
  cases i
  case rd a =>
    obtain ⟨hoff, hon, _⟩ := busErrorExactlyOffTheMap s a 0
    by_cases ha : mappedAddr s.inCap a.toNat
    · exact .inl (hon ha)
    · exact .inr ⟨a, hoff ha⟩
  case wr a v =>
    obtain ⟨_, _, hoff, hon⟩ := busErrorExactlyOffTheMap s a v
    by_cases ha : writableAddr s.inCap a.toNat
    · exact .inl (hon ha)
    · exact .inr ⟨a, hoff ha⟩
  all_goals cases hi

/-- An instruction that starts no CBCE takes nothing from the host's list and leaves no request outstanding. -/
theorem exec_inputs_rngPending {s t : State} {i : Instr} (hcmd : i ≠ .cbce) (hwr : i ≠ .wr cmdAddr 0x40)
    (h : exec i s = .next t) : t.inputs = s.inputs ∧ t.rngPending = s.rngPending := by
  rcases exec_command_or_none h with ⟨c, u, hr, hx⟩ | hnone
  · obtain ⟨v, rfl⟩ := hr.eq_setCmd
    have hc : c ≠ .cbce := by
      rintro rfl
      exact (hr.eq_or_eq_wr rfl).elim hcmd hwr
    have hidle := (exec_command_port hr.isCommand hc hx).rngPending
    exact ⟨(exec_command_operandsKept hr.isCommand hx).inputs, hidle⟩
  · exact ⟨hnone.inputs, hnone.port.rngPending⟩

/-- Settles O55: each word is a transaction that leaves one word less and no request outstanding, or ends the run. -/
theorem programWithoutCbceEnds : Obligations.ProgramWithoutCbceEnds := by
  intro s ws hp hi hws
  induction ws generalizing s with
  | nil => exact .inl ⟨s, rfl, by simp [programDone, hi, hp]⟩
  | cons w ws ih =>
    obtain ⟨⟨hwf, hne⟩, hws⟩ := List.forall_mem_cons.mp hws
    obtain ⟨i, hd⟩ := decodeTransaction_of_wellFormed hwf
    have hc := decodeTransaction_not_command hd
    have hstep := step_of_decode hp hi hd
    rcases exec_transaction_outcome hc { s with inputs := ws.map .word } with ⟨t, ht⟩ | ⟨a, ha⟩
    · have hcbce : i ≠ .cbce := by
        rintro rfl
        cases hc
      have hwr : i ≠ .wr cmdAddr 0x40 := by
        rintro rfl
        exact hne (Code.transaction.inj (encode_of_decodeTransaction hd)).symm
      obtain ⟨htail, hidle⟩ := exec_inputs_rngPending hcbce hwr ht
      rw [List.length_cons, run_succ_next _ (hstep.trans ht)]
      exact ih t (hidle.trans hp) htail hws
    · exact .inr ⟨a, run_succ_fault _ (hstep.trans ha)⟩

/-! ### Loading a key -/

theorem decodeTransaction_instrWord_wr (a : Addr) (v : Byte) : decodeTransaction (instrWord (.wr a v)) = .ok (.wr a v) :=
  decodeTransaction_packTransaction_write a v

/-- The words of a list of transactions, as the host's inputs. -/
def wordInputs (p : List Instr) : List HostInput := p.map fun i => .word (instrWord i)

/-- A run performs the WR at the head of the host's list. -/
theorem run_wr {s t : State} {a : Addr} {v : Byte} {p : List Instr} (n : Nat) (hp : s.rngPending = false)
    (hi : s.inputs = wordInputs (.wr a v :: p)) (ht : exec (.wr a v) { s with inputs := wordInputs p } = .next t) :
    Host.Core.run Sys2Proof.core (n + 1) s = Host.Core.run Sys2Proof.core n t :=
  run_succ_next n ((step_of_decode hp hi (decodeTransaction_instrWord_wr a v)).trans ht)

theorem exec_wr_key (s : State) {k : Nat} (hk : k < 16) (v : Byte) :
    exec (.wr (hostAddr 0x20 k) v) s = .next { s with key := setBlockByte s.key k v, schedValid := false } :=
  have ha : (hostAddr 0x20 k).toNat = 0x20 + k := hostAddr_toNat (by omega)
  exec_wr_of_locate v k (locate_key hk ha) ha

theorem exec_wr_keyLen (s : State) (v : Byte) :
    exec (.wr (hostAddr 0xC 0) v) s = .next { s with keyLen := v, schedValid := false } :=
  exec_wr_of_locate v 0 (locate_keyLen rfl) rfl

theorem hostAddr_succ (base j : Nat) : hostAddr base j + 1 = hostAddr base (j + 1) := by
  simp [hostAddr, BitVec.ofNat_add, BitVec.add_assoc]

/-- A block with the bytes of a sequence written from byte `j` on. -/
def setBlockBytes (b : Block) : (j : Nat) → List Byte → Block
  | _, [] => b
  | j, v :: vs => setBlockBytes (setBlockByte b j v) (j + 1) vs

theorem blockByte_setBlockBytes (b : Block) (j : Nat) (l : List Byte) {k : Nat} (hk : k < 16) :
    blockByte (setBlockBytes b j l) k = if j ≤ k then l.getD (k - j) (blockByte b k) else blockByte b k := by
  induction l generalizing b j with
  | nil => simp [setBlockBytes]
  | cons v vs ih =>
    rw [setBlockBytes, ih, blockByte_setBlockByte _ _ _ hk]
    obtain hlt | rfl | hgt := Nat.lt_trichotomy k j
    · simp [hlt.not_ge, hlt.ne, show ¬ j + 1 ≤ k by omega]
    · simp
    · simp [hgt.le, hgt.ne', Nat.succ_le_of_lt hgt, show k - j = (k - (j + 1)) + 1 by omega]

theorem setBlockBytes_blockBytes (b h : Block) : setBlockBytes b 0 (blockBytes h) = h :=
  block_ext fun k hk => by
    rw [blockByte_setBlockBytes b 0 _ hk, if_pos (Nat.zero_le k), Nat.sub_zero, List.getD_eq_getElem?_getD,
      blockBytes_getElem h hk, Option.getD_some]

/-- R91, `WRN KEY+j, l`: the writes of one or more bytes of KEY. -/
theorem run_write_key {s : State} {j : Nat} {v : Byte} {l : List Byte} {p : List Instr} (n : Nat)
    (hj : j + l.length < 16) (hp : s.rngPending = false)
    (hi : s.inputs = wordInputs (writeBytesAt (hostAddr 0x20 j) (v :: l) ++ p)) :
    Host.Core.run Sys2Proof.core (l.length + 1 + n) s =
      Host.Core.run Sys2Proof.core n
        { s with key := setBlockBytes s.key j (v :: l), schedValid := false, inputs := wordInputs p } := by
  induction l generalizing s j v with
  | nil =>
    rw [List.length_nil, Nat.zero_add, Nat.add_comm]
    exact run_wr n hp hi (exec_wr_key _ hj v)
  | cons u l ih =>
    rw [List.length_cons] at hj ⊢
    rw [writeBytesAt, hostAddr_succ] at hi
    rw [Nat.add_right_comm _ 1 n, run_wr _ hp hi (exec_wr_key _ (by omega) v)]
    exact ih (by omega) hp rfl

/-- R91, `WRN KEY, h`. -/
theorem run_write_key_block {s : State} {h : Block} {p : List Instr} (n : Nat) (hp : s.rngPending = false)
    (hi : s.inputs = wordInputs (writeBytesAt (hostAddr 0x20 0) (blockBytes h) ++ p)) :
    Host.Core.run Sys2Proof.core (16 + n) s =
      Host.Core.run Sys2Proof.core n { s with key := h, schedValid := false, inputs := wordInputs p } := by
  obtain ⟨v, l, hvl⟩ : ∃ v l, blockBytes h = v :: l := ⟨_, _, rfl⟩
  have hlen : l.length + 1 = 16 := by rw [← List.length_cons, ← hvl, blockBytes_length]
  rw [hvl] at hi
  have hrun := run_write_key n (by omega) hp hi
  rwa [hlen, ← hvl, setBlockBytes_blockBytes] at hrun

/-- R91: the 18 transactions. -/
theorem programWords_loadKey (h : Block) :
    (programWords [.pseudo (.ldkey h), .pseudo (.cmd .keyexp)]).map .word =
      wordInputs (writeBytesAt (hostAddr 0x20 0) (blockBytes h) ++
        [.wr (hostAddr 0xC 0) 0x10#8, .wr cmdAddr 0x10#8]) := rfl

theorem exec_wr_cmd_keyexp {s : State} (hk : s.keyLen = 0x10) :
    exec (.wr cmdAddr 0x10#8) s = .next { s with cmd := 0x10, rk := expand s.key, schedValid := true, err := .ok } := by
  rw [exec_wr_cmdAddr, executeCommand_of_decode (i := .keyexp) rfl]
  exact (keyexpExpandsOrRejects _).1 hk

/-- Settles O56: sixteen writes of KEY, that of KEYLEN, and KEYEXP. -/
theorem loadKeyProgram : Obligations.LoadKeyProgram := by
  intro s h hp
  have hkey := run_write_key_block (s := s.withProgram [.pseudo (.ldkey h), .pseudo (.cmd .keyexp)]) 2 hp
    (programWords_loadKey h)
  refine hkey.trans (.trans (run_wr 1 hp rfl (exec_wr_keyLen _ _)) ?_)
  exact run_wr 0 hp rfl (exec_wr_cmd_keyexp rfl)

end Sys2Proof.Machine
end

section
/-! PROOF. The published vectors (spec/95_test_vectors.md), by evaluation of the model. -/

namespace Sys2Proof.Machine

set_option maxRecDepth 100000 in
/-- Settles O57: the expansion and the two encryptions, evaluated; the decryption undoes the encryption. -/
theorem publishedVectors : Obligations.PublishedVectors := by
  unfold Obligations.PublishedVectors
  intro k p c m iv c0
  have hencrypt : encryptBlock p (expand k) = c := by decide
  exact ⟨by decide, hencrypt, hencrypt ▸ decryptBlock_encryptBlock p (expand k), by decide⟩

end Sys2Proof.Machine
end
